-- ==== Sys2Proof/Word.lean ====
section
/-! DEFINITION. The word type and the arithmetic notation of spec/00_scope.md R12. -/

namespace Sys2Proof

/-- A 32-bit value, the `Bits32` of 00 R12. -/
abbrev Word := BitVec 32

/-- One byte of the data memory (20 R51). -/
abbrev Byte := BitVec 8

/-- `s32(v)`: the signed reading of a word (00 R12). -/
abbrev s32 (v : Word) : Int := v.toInt

/-- `u32(v)`: the unsigned reading of a word (00 R12). -/
abbrev u32 (v : Word) : Nat := v.toNat

/-- `wrap32(n)`: the word congruent to the integer `n` modulo 2^32 (00 R12). -/
abbrev wrap32 (n : Int) : Word := BitVec.ofInt 32 n

end Sys2Proof
end

