-- ==== Sys2Proof/Config.lean ====
section
/-! DEFINITION. The implementation parameters of spec/00_scope.md R10. The spec fixes a value for every one; no free
value is left to the model (R11: the Program, the trace's text and a caller's fuel are the only open parameters). -/

namespace Sys2Proof.Config

/-- `NREG`: the general registers (00 R10, 10 R21). -/
abbrev nreg : Nat := 32

/-- `DMEM_WORDS`: the capacity of the data memory in words (00 R10, 10 R41). -/
abbrev dmemWords : Nat := 262144

/-- `DMEM_BYTES`: the byte address range of the data memory (00 R10, 20 R52). -/
abbrev dmemBytes : Nat := 1048576

/-- `IMEM_MAX`: the largest program accepted (00 R10, 30 R90). -/
abbrev imemMax : Nat := 262144

/-- `MAX_INFLIGHT`: the most instructions resident at a cycle boundary (00 R10). -/
abbrev maxInflight : Nat := 4

end Sys2Proof.Config
end

