-- ==== Sys2Proof/Syntax.lean ====
section
/-! DEFINITION. The instructions, the instruction slots and the program: the core's input (spec/30_encoding.md,
section 1; spec/10_state.md R42, R43). -/

namespace Sys2Proof

/-- A register index, 0..31, in 5 bits (10 R21, 30 R71). -/
abbrev Reg := BitVec 5

/-- A branch or jump target (30 R72): a program index, or a label name that EX resolves through the label table. -/
inductive Target where
  | idx (n : Int)
  | sym (name : String)
  deriving DecidableEq, Repr

/-- The decoded instruction record (30 R71), one constructor for each row of spec/opcode_table.json, operands in the
assembler's order (30 R87). An immediate or offset is the signed integer itself (30 R76); that it lies in the 32-bit
range is `Instr.wf`. -/
inductive Instr where
  | add (rd rs rt : Reg)
  | sub (rd rs rt : Reg)
  | slt (rd rs rt : Reg)
  | mul (rd rs rt : Reg)
  | beq (rs rt : Reg) (t : Target)
  | bne (rs rt : Reg) (t : Target)
  | j (t : Target)
  | lw (rt : Reg) (off : Int) (base : Reg)
  | sw (rt : Reg) (off : Int) (base : Reg)
  | addi (rt rs : Reg) (imm : Int)
  deriving DecidableEq, Repr

/-- Why a slot holds no instruction (30 R73). -/
inductive BadKind where
  | syntaxError
  | invalidRegister
  deriving DecidableEq, Repr

/-- An instruction slot (30 R73). -/
inductive Slot where
  | ok (i : Instr)
  | bad (k : BadKind)
  deriving DecidableEq, Repr

/-- One entry of the instruction store. `slot` is the record form (30 R70). `word` is the binary form (30 R77), which
becomes a slot when IF reads it: "In the binary form, `decode` is applied to the word at fetch" (90 C9). -/
inductive Entry where
  | slot (sl : Slot)
  | word (w : Word)
  deriving DecidableEq, Repr

/-- What the label table holds for a name that is in it (10 R43); a name that is not in it is `Absent`. -/
inductive Label where
  | dup
  | defined (n : Nat)
  deriving DecidableEq, Repr

/-- The program (30 R74): the instruction store and the label table, read-only for the core (10 R42, R43). -/
structure Program where
  store : List Entry
  labels : List (String × Label)
  deriving DecidableEq, Repr

/-- `len`: the number of instruction slots (10 R42). -/
def Program.len (P : Program) : Nat := P.store.length

end Sys2Proof
end

