-- ==== Sys2Proof/Machine/State.lean ====
section
/-! DEFINITION. The state of the core as plain data (spec/10_state.md), its reset value (10 R44), and the two reason
types of a stopped step. -/

namespace Sys2Proof.Machine

/-- The register file: 32 words (10 R21). Entry 0 is reached only through `readReg` and `writeReg`, which hard-wire it. -/
abbrev Regs := Vector Word 32

/-- The data memory as bytes (10 R41, 20 R51): (byte address, byte) pairs with addresses strictly rising and no entry
equal to 0, which is what an unlisted address reads as (10 R44). Word `w` is the bytes `4w` to `4w + 3` (20 R54). -/
abbrev Memory := List Host.Cell

/-- The retirement counters (10 R33): (program index, count) pairs with indices strictly rising and no count 0, which
is what an unlisted index reads as (log 9). -/
abbrev Counts := List (Nat × Nat)

/-- The kinds of error (60 R220). -/
inductive ErrKind where
  | invalidRegister
  | invalidLabel
  | invalidAddress
  | syntaxError
  | memoryLimitExceeded
  deriving DecidableEq, Repr

/-- The run status (10 R30). -/
inductive Status where
  | running
  | success
  | invalidRegister
  | invalidLabel
  | invalidAddress
  | syntaxError
  | memoryLimitExceeded
  deriving DecidableEq, Repr

/-- The error record `(kind, idx)` (10 R31): `idx` is the program index of the instruction that raised it, the PC for a
fetch error, len for MemoryLimitExceeded. -/
structure ErrRecord where
  kind : ErrKind
  idx : Nat
  deriving DecidableEq, Repr

/-- The record of a full latch (10 R34). A field that 10 R35 to R38 do not list for a latch and an instruction is 0
(`none` for `dest`), the defaults here. -/
structure InFlight where
  idx : Nat
  ins : Instr
  dest : Option Reg := none
  a : Word := 0#32
  b : Word := 0#32
  addr : Int := 0
  sdata : Word := 0#32
  res : Word := 0#32
  deriving DecidableEq, Repr

/-- A pipeline latch (10 R34). -/
inductive Latch where
  | bubble
  | full (F : InFlight)
  deriving DecidableEq, Repr

/-- A store event: word index and value (10 R46). -/
structure StoreEvent where
  word : Nat
  value : Word
  deriving DecidableEq, Repr

/-- A trace record (10 R46): the 32 register values at the end of the cycle, and the cycle's store event. -/
structure TraceRecord where
  regs : Regs
  store : Option StoreEvent
  deriving DecidableEq, Repr

/-- The state of the core: the tuple of 10 R20, then the launch configuration that the step reads (10 R42, R43, R45;
log 2), then the observation port's records, newest first (10 R46; log 3: the model's own field, which no rule reads). -/
structure State where
  regs : Regs
  pc : Nat
  ifid : Latch
  idex : Latch
  exmem : Latch
  memwb : Latch
  dmem : Memory
  status : Status
  err : Option ErrRecord
  cycles : Nat
  retired : Counts
  program : Program
  trace : List TraceRecord
  deriving DecidableEq, Repr

/-- The model stops with no fault. The type is empty: every error of 60 R220 ends the run in a state that the spec
gives (40 R124, 60 R230, R231), so it is a next state. Safe: nothing is cut short. -/
inductive Fault
  deriving DecidableEq, Repr

/-- Why the model has no meaning for an instruction. -/
inductive Refusal where
  /-- Raised only by an arm of `exec` whose instruction has no meaning yet; no arm raises it in this model. Safe: a
  refusal proves nothing about the hardware. -/
  | notModelled (mnemonic : String)
  deriving DecidableEq, Repr

/-- The machine right after reset, before cycle 1 (10 R44, 70 R250). The program is the launch configuration, which the
spec gives no reset value: empty here, and loaded from outside (log 2, log 7). -/
def State.reset : State where
  regs := Vector.replicate 32 0#32
  pc := 0
  ifid := .bubble
  idex := .bubble
  exmem := .bubble
  memwb := .bubble
  dmem := []
  status := .running
  err := none
  cycles := 0
  retired := []
  program := ⟨[], []⟩
  trace := []

end Sys2Proof.Machine
end

