-- ==== Sys2Proof/Machine/Flags.lean ====
section
/-! DEFINITION. The core has no flags, condition codes or predicates (10 R28). What stands in their place is here: the
value of `slt` and the two branch conditions, each computed from two words and held nowhere. -/

namespace Sys2Proof.Machine

/-- The signed comparison that `slt` delivers as 0 or 1 (41 R164). -/
def ltSigned (a b : Word) : Word := if s32 a < s32 b then 1#32 else 0#32

/-- The condition of `beq`: the words are equal (42 R186). -/
def condBeq (a b : Word) : Bool := decide (a = b)

/-- The condition of `bne`: the words differ (42 R186). -/
def condBne (a b : Word) : Bool := decide (a ≠ b)

/-- The condition of `j` (42 R186). -/
def condJ : Bool := true

end Sys2Proof.Machine
end

