-- ==== Sys2Proof/WellFormed.lean ====
section
/-! DEFINITION. Which instructions and programs the loader may hand to the core (spec/30_encoding.md R71, R81, R90;
spec/10_state.md R43). The machine runs any term; these predicates are what statements assume where they need it. -/

namespace Sys2Proof

/-- An integer in the range of `Int32` (30 R71). -/
abbrev inInt32 (n : Int) : Bool := decide (-2147483648 ≤ n ∧ n < 2147483648)

/-- An integer that a sign-extended 16-bit field can hold (30 R81). -/
abbrev inInt16 (n : Int) : Bool := decide (-32768 ≤ n ∧ n < 32768)

/-- The record form's own check (30 R71): `imm` and `off` are signed 32-bit integers. A target index is any integer
(30 R72), and a register index has 5 bits by its type. -/
def Instr.wf : Instr → Bool
  | .add _ _ _ => true
  | .sub _ _ _ => true
  | .slt _ _ _ => true
  | .mul _ _ _ => true
  | .beq _ _ _ => true
  | .bne _ _ _ => true
  | .j _ => true
  | .lw _ off _ => inInt32 off
  | .sw _ off _ => inInt32 off
  | .addi _ _ imm => inInt32 imm

/-- A branch target that the binary form can hold at program index `k`: an index whose distance from `k + 1` fits in 16
signed bits (30 R81). "A binary program has no `Sym` targets". -/
def Target.branchEncodable (k : Nat) : Target → Bool
  | .idx n => inInt16 (n - (k + 1))
  | .sym _ => false

/-- A jump target that the binary form can hold: an absolute index of 26 bits (30 R81). -/
def Target.jumpEncodable : Target → Bool
  | .idx n => decide (0 ≤ n ∧ n < 67108864)
  | .sym _ => false

/-- The instruction has a word in the binary form at program index `k` (30 R81). -/
def Instr.encodable (k : Nat) : Instr → Bool
  | .add _ _ _ => true
  | .sub _ _ _ => true
  | .slt _ _ _ => true
  | .mul _ _ _ => true
  | .beq _ _ t => t.branchEncodable k
  | .bne _ _ t => t.branchEncodable k
  | .j t => t.jumpEncodable
  | .lw _ off _ => inInt16 off
  | .sw _ off _ => inInt16 off
  | .addi _ _ imm => inInt16 imm

/-- A slot holds a well-formed instruction, or none. -/
def Slot.wf : Slot → Bool
  | .ok i => i.wf
  | .bad _ => true

/-- A store entry is well formed; every word is (30 R83 is total on words). -/
def Entry.wf : Entry → Bool
  | .slot sl => sl.wf
  | .word _ => true

/-- A label's index lies in 0..len (10 R43). -/
def Label.wf (len : Nat) : Label → Bool
  | .dup => true
  | .defined n => decide (n ≤ len)

/-- The program is one a loader may build: its slots are well formed, its label table is a map (each name once) and
each `Def n` of it lies in 0..len (10 R43, 30 R89). -/
def Program.wf (P : Program) : Bool :=
  P.store.all Entry.wf && decide ((P.labels.map Prod.fst).Nodup) && P.labels.all (fun e => e.2.wf P.len)

/-- The program is within `IMEM_MAX` (30 R90). -/
def Program.fits (P : Program) : Bool := decide (P.len ≤ Config.imemMax)

end Sys2Proof
end

