-- ==== Sys2Proof/Decode.lean ====
section
/-! DEFINITION. The binary form (spec/30_encoding.md, section 2): the decoder, total on words and rejecting by name,
the opcode map, and the encoder. -/

namespace Sys2Proof

/-! ### Fields of a word (30 R78, R79, R80) -/

def opField (w : Word) : BitVec 6 := w.extractLsb' 26 6
def rsField (w : Word) : Reg := w.extractLsb' 21 5
def rtField (w : Word) : Reg := w.extractLsb' 16 5
def rdField (w : Word) : Reg := w.extractLsb' 11 5
def shamtField (w : Word) : BitVec 5 := w.extractLsb' 6 5
def functField (w : Word) : BitVec 6 := w.extractLsb' 0 6
def imm16Field (w : Word) : BitVec 16 := w.extractLsb' 0 16
def target26Field (w : Word) : BitVec 26 := w.extractLsb' 0 26

/-- `s32(sext_16(w[15:0]))`: the immediate or offset of an I-format word (30 R81). -/
def immOf (w : Word) : Int := s32 ((imm16Field w).signExtend 32)

/-- The target of a branch word at program index `k`: relative to the next instruction (30 R81). -/
def branchTarget (w : Word) (k : Nat) : Target := .idx ((k : Int) + 1 + immOf w)

/-- The target of a jump word: an absolute index (30 R81). -/
def jumpTarget (w : Word) : Target := .idx (u32 ((target26Field w).setWidth 32))

/-- The binary decoder at program index `k` (30 R83): total on words. Every word outside the ten rows is
`Bad SyntaxError` (30 R84). -/
def decodeWord (w : Word) (k : Nat) : Slot :=
  let op := opField w
  let rs := rsField w
  let rt := rtField w
  let rd := rdField w
  let sh := shamtField w
  let fn := functField w
  if op = 0x00#6 ∧ sh = 0#5 ∧ fn = 0x20#6 then .ok (.add rd rs rt)
  else if op = 0x00#6 ∧ sh = 0#5 ∧ fn = 0x22#6 then .ok (.sub rd rs rt)
  else if op = 0x00#6 ∧ sh = 0#5 ∧ fn = 0x2A#6 then .ok (.slt rd rs rt)
  else if op = 0x1C#6 ∧ sh = 0#5 ∧ fn = 0x02#6 then .ok (.mul rd rs rt)
  else if op = 0x04#6 then .ok (.beq rs rt (branchTarget w k))
  else if op = 0x05#6 then .ok (.bne rs rt (branchTarget w k))
  else if op = 0x02#6 then .ok (.j (jumpTarget w))
  else if op = 0x23#6 then .ok (.lw rt (immOf w) rs)
  else if op = 0x2B#6 then .ok (.sw rt (immOf w) rs)
  else if op = 0x08#6 then .ok (.addi rt rs (immOf w))
  else .bad .syntaxError

/-- The slot that IF reads from a store entry at index `k` (30 R73, 90 C9). -/
def Entry.slotAt (k : Nat) : Entry → Slot
  | .slot sl => sl
  | .word w => decodeWord w k

/-- The host's reading of a table row: the instruction of the word whose bits are `w`, at program index 0 (log 13). -/
def decodeTableWord (nbits w : Nat) : Option Instr :=
  match decodeWord (BitVec.ofNat 32 (w % 2 ^ nbits)) 0 with
  | .ok i => some i
  | .bad _ => none

/-! ### The opcode map (30 R82) -/

/-- One row of the opcode map: a word selects the row when `w AND mask = match` (30 R82). -/
structure OpcodeRow where
  mnemonic : String
  mask : Word
  pattern : Word
  deriving DecidableEq, Repr

def OpcodeRow.selects (r : OpcodeRow) (w : Word) : Bool := decide (w &&& r.mask = r.pattern)

/-- The ten rows, in the table's order (30 R82). -/
def opcodeMap : List OpcodeRow :=
  [ ⟨"add", 0xFC0007FF#32, 0x00000020#32⟩,
    ⟨"sub", 0xFC0007FF#32, 0x00000022#32⟩,
    ⟨"slt", 0xFC0007FF#32, 0x0000002A#32⟩,
    ⟨"mul", 0xFC0007FF#32, 0x70000002#32⟩,
    ⟨"beq", 0xFC000000#32, 0x10000000#32⟩,
    ⟨"bne", 0xFC000000#32, 0x14000000#32⟩,
    ⟨"j", 0xFC000000#32, 0x08000000#32⟩,
    ⟨"lw", 0xFC000000#32, 0x8C000000#32⟩,
    ⟨"sw", 0xFC000000#32, 0xAC000000#32⟩,
    ⟨"addi", 0xFC000000#32, 0x20000000#32⟩ ]

/-- The mnemonic of an instruction (30 R82, R87). -/
def Instr.mnemonic : Instr → String
  | .add _ _ _ => "add"
  | .sub _ _ _ => "sub"
  | .slt _ _ _ => "slt"
  | .mul _ _ _ => "mul"
  | .beq _ _ _ => "beq"
  | .bne _ _ _ => "bne"
  | .j _ => "j"
  | .lw _ _ _ => "lw"
  | .sw _ _ _ => "sw"
  | .addi _ _ _ => "addi"

/-! ### The encoder -/

/-- An R-format word, shamt 0 (30 R78). -/
def rFormat (op : BitVec 6) (rs rt rd : Reg) (fn : BitVec 6) : Word := op ++ rs ++ rt ++ rd ++ 0#5 ++ fn

/-- An I-format word (30 R79). -/
def iFormat (op : BitVec 6) (rs rt : Reg) (imm16 : BitVec 16) : Word := op ++ rs ++ rt ++ imm16

/-- A J-format word (30 R80). -/
def jFormat (op : BitVec 6) (target26 : BitVec 26) : Word := op ++ target26

/-- The 16-bit field of a branch at program index `k` (30 R81); a symbolic target has none and gives 0. -/
def Target.branchField (k : Nat) : Target → BitVec 16
  | .idx n => BitVec.ofInt 16 (n - (k + 1))
  | .sym _ => 0

/-- The 26-bit field of a jump (30 R81); a symbolic target has none and gives 0. -/
def Target.jumpField : Target → BitVec 26
  | .idx n => BitVec.ofInt 26 n
  | .sym _ => 0

/-- The word of an instruction at program index `k`, for an instruction with `Instr.encodable k` (30 R81, R82). -/
def encode (i : Instr) (k : Nat) : Word :=
  match i with
  | .add rd rs rt => rFormat 0x00#6 rs rt rd 0x20#6
  | .sub rd rs rt => rFormat 0x00#6 rs rt rd 0x22#6
  | .slt rd rs rt => rFormat 0x00#6 rs rt rd 0x2A#6
  | .mul rd rs rt => rFormat 0x1C#6 rs rt rd 0x02#6
  | .beq rs rt t => iFormat 0x04#6 rs rt (t.branchField k)
  | .bne rs rt t => iFormat 0x05#6 rs rt (t.branchField k)
  | .j t => jFormat 0x02#6 t.jumpField
  | .lw rt off base => iFormat 0x23#6 base rt (BitVec.ofInt 16 off)
  | .sw rt off base => iFormat 0x2B#6 base rt (BitVec.ofInt 16 off)
  | .addi rt rs imm => iFormat 0x08#6 rs rt (BitVec.ofInt 16 imm)

end Sys2Proof
end

