-- ==== Sys2Proof/Machine/Ops.lean ====
section
/-! DEFINITION. The named operations over the state: registers (10 R21 to R25), the data memory (20 R50 to R58), the
retirement counters (10 R33), the abort of a run (40 R124), the launch (70 R250) and the outputs (10 R46). -/

namespace Sys2Proof.Machine

/-! ### Sparse tables in canonical form -/

/-- The entry at key `a`, or `d` where none is listed. -/
def cellGet {α : Type} (d : α) (m : List (Nat × α)) (a : Nat) : α :=
  match m with
  | [] => d
  | (b, v) :: t => if a = b then v else cellGet d t a

/-- Set the entry at key `a`, keeping keys rising and no entry equal to `d`. -/
def cellSet {α : Type} [DecidableEq α] (d : α) (m : List (Nat × α)) (a : Nat) (v : α) : List (Nat × α) :=
  match m with
  | [] => if v = d then [] else [(a, v)]
  | (b, u) :: t =>
    if a < b then (if v = d then (b, u) :: t else (a, v) :: (b, u) :: t)
    else if a = b then (if v = d then t else (a, v) :: t)
    else (b, u) :: cellSet d t a v

/-- The canonical form: keys strictly rising, no entry equal to `d`. -/
abbrev cellsWf {α : Type} [DecidableEq α] (d : α) (m : List (Nat × α)) : Prop :=
  m.Pairwise (fun x y => x.1 < y.1) ∧ ∀ c ∈ m, c.2 ≠ d

/-! ### Registers -/

/-- `x[r]`: register 0 reads as 0 (10 R23). -/
def readReg (R : Regs) (r : Reg) : Word :=
  if r = 0#5 then 0#32 else R[r.toNat]'r.isLt

/-- `x[r] <- v`: a write to register 0 is discarded (10 R23). -/
def writeReg (R : Regs) (r : Reg) (v : Word) : Regs :=
  if r = 0#5 then R else R.set r.toNat v r.isLt

/-- The 32 register values in index order, as the observation port shows them (10 R46); register 0 shows 0 (10 R23). -/
def regView (R : Regs) : Regs :=
  Vector.ofFn (fun i => readReg R (BitVec.ofNat 5 i.val))

/-- The register names of the assembler (10 R22): `$0` to `$31` and the symbolic names with the o32 numbers. -/
def regNames : List (String × Reg) :=
  [ ("$zero", 0), ("$at", 1), ("$v0", 2), ("$v1", 3), ("$a0", 4), ("$a1", 5), ("$a2", 6), ("$a3", 7),
    ("$t0", 8), ("$t1", 9), ("$t2", 10), ("$t3", 11), ("$t4", 12), ("$t5", 13), ("$t6", 14), ("$t7", 15),
    ("$s0", 16), ("$s1", 17), ("$s2", 18), ("$s3", 19), ("$s4", 20), ("$s5", 21), ("$s6", 22), ("$s7", 23),
    ("$t8", 24), ("$t9", 25), ("$k0", 26), ("$k1", 27), ("$gp", 28), ("$sp", 29), ("$s8", 30), ("$ra", 31),
    ("$0", 0), ("$1", 1), ("$2", 2), ("$3", 3), ("$4", 4), ("$5", 5), ("$6", 6), ("$7", 7),
    ("$8", 8), ("$9", 9), ("$10", 10), ("$11", 11), ("$12", 12), ("$13", 13), ("$14", 14), ("$15", 15),
    ("$16", 16), ("$17", 17), ("$18", 18), ("$19", 19), ("$20", 20), ("$21", 21), ("$22", 22), ("$23", 23),
    ("$24", 24), ("$25", 25), ("$26", 26), ("$27", 27), ("$28", 28), ("$29", 29), ("$30", 30), ("$31", 31) ]

/-- The register a name stands for; `none` is the cause of a slot `Bad InvalidRegister` (10 R22, 30 R73). -/
def regOfName (name : String) : Option Reg := regNames.lookup name

/-! ### Data memory -/

/-- What a byte that nothing has written reads as (10 R44: `DMEM[w] = 0`). -/
abbrev Memory.unlisted : Byte := 0#8

/-- The canonical form of the data memory. -/
abbrev Memory.wf (m : Memory) : Prop := cellsWf Memory.unlisted m

/-- One byte of the data memory. -/
def Memory.byteAt (m : Memory) (a : Nat) : Byte := cellGet Memory.unlisted m a

/-- Write one byte of the data memory. -/
def Memory.setByte (m : Memory) (a : Nat) (v : Byte) : Memory := cellSet Memory.unlisted m a v

/-- `DMEM[w]`: the word at word index `w`, of the bytes `4w` to `4w + 3` (20 R54). Which byte is the low one cannot be
seen (20 R54); the model puts it first (log 1). -/
def Memory.word (m : Memory) (w : Nat) : Word :=
  m.byteAt (4 * w + 3) ++ m.byteAt (4 * w + 2) ++ m.byteAt (4 * w + 1) ++ m.byteAt (4 * w)

/-- `DMEM[w] <- v` (20 R58). -/
def Memory.setWord (m : Memory) (w : Nat) (v : Word) : Memory :=
  (((m.setByte (4 * w) (v.extractLsb' 0 8)).setByte (4 * w + 1) (v.extractLsb' 8 8)).setByte
    (4 * w + 2) (v.extractLsb' 16 8)).setByte (4 * w + 3) (v.extractLsb' 24 8)

/-- `valid(addr)` (20 R52). -/
def validAddr (addr : Int) : Bool := decide (0 ≤ addr ∧ addr < 1048576 ∧ addr % 4 = 0)

/-- `addr div 4`: the word index of a byte address (20 R51). -/
def wordIndex (addr : Int) : Nat := (addr / 4).toNat

/-- `MemRead(addr, 4)` (20 R58), used only where `validAddr addr`. -/
def memRead (m : Memory) (addr : Int) : Word := m.word (wordIndex addr)

/-- `MemWrite(addr, 4, v)` (20 R58), used only where `validAddr addr`. -/
def memWrite (m : Memory) (addr : Int) (v : Word) : Memory := m.setWord (wordIndex addr) v

/-! ### Retirement counters -/

/-- `retired[k]` (10 R33). -/
def Counts.at (c : Counts) (k : Nat) : Nat := cellGet 0 c k

/-- `retired[k] <- retired[k] + 1` (10 R33, 40 R103). -/
def Counts.bump (c : Counts) (k : Nat) : Counts := cellSet 0 c k (c.at k + 1)

/-- The canonical form of the retirement counters. -/
abbrev Counts.wf (c : Counts) : Prop := cellsWf 0 c

/-- The total number of retirements (the `S` of 70 R259). -/
def Counts.total (c : Counts) : Nat := (c.map Prod.snd).sum

/-! ### Taking an error -/

/-- The terminal status of an error kind (10 R30, 60 R220). -/
def ErrKind.status : ErrKind → Status
  | .invalidRegister => .invalidRegister
  | .invalidLabel => .invalidLabel
  | .invalidAddress => .invalidAddress
  | .syntaxError => .syntaxError
  | .memoryLimitExceeded => .memoryLimitExceeded

/-- The error a `Bad` slot raises (60 R221, R222). -/
def badErr : BadKind → ErrKind
  | .syntaxError => .syntaxError
  | .invalidRegister => .invalidRegister

/-- The spec's number of a terminal status; `Running` has none (60 R220). -/
def Status.code : Status → Option Nat
  | .running => none
  | .success => some 0
  | .invalidRegister => some 1
  | .invalidLabel => some 2
  | .invalidAddress => some 3
  | .syntaxError => some 4
  | .memoryLimitExceeded => some 5

/-- Taking an error, the one shared operation (40 R124, R126 `abort`; 60 R231): `status` becomes the kind and `err` the
record; everything else stays as the stages before the raising one left it. Nothing is saved beyond this and control
goes nowhere. There is no return from it: a terminated core does not run again (60 R232). -/
def State.abort (s : State) (e : ErrRecord) : State :=
  { s with status := e.kind.status, err := some e }

/-- The successful end of a run (40 R123, 60 R226): `status` becomes Success, `err` stays None. -/
def State.succeed (s : State) : State := { s with status := .success }

/-! ### Launch and instruction store -/

/-- The reset state with a program loaded (70 R250, steps 1 and 2). -/
def State.launch (P : Program) : State := { State.reset with program := P }

/-- What the instruction store answers at the PC: the slot `IMEM[PC]`, or nothing when `PC ≥ len` (10 R42, 40 R130). -/
def State.slotAtPc (s : State) : Option Slot :=
  (s.program.store[s.pc]?).map (Entry.slotAt s.pc)

/-- Put an entry at index `k` of a store; a store that is too short is filled up with `Bad SyntaxError` slots. -/
def putEntry (store : List Entry) (k : Nat) (e : Entry) : List Entry :=
  match store, k with
  | [], 0 => [e]
  | _ :: t, 0 => e :: t
  | [], k + 1 => .slot (.bad .syntaxError) :: putEntry [] k e
  | h :: t, k + 1 => h :: putEntry t k e

/-- The store entry of a table word: the binary form (30 R77). -/
def tableEntry (nbits w : Nat) : Entry := .word (BitVec.ofNat 32 (w % 2 ^ nbits))

/-- `P.labels(name)`; `none` is `Absent` (10 R43). -/
def labelOf (P : Program) (name : String) : Option Label := P.labels.lookup name

/-! ### Latches, derived signals and outputs -/

/-- All four latches hold a bubble. -/
abbrev State.latchesEmpty (s : State) : Prop :=
  s.ifid = .bubble ∧ s.idex = .bubble ∧ s.exmem = .bubble ∧ s.memwb = .bubble

/-- Drained (40 R122). -/
abbrev State.drained (s : State) : Prop := s.program.len ≤ s.pc ∧ s.latchesEmpty

/-- The instruction of a latch, as an entry of the window. -/
def Latch.entry : Latch → List (Nat × Instr)
  | .bubble => []
  | .full F => [(F.idx, F.ins)]

/-- The InFlightWindow (10 R39): the non-bubble latches from MEM/WB to IF/ID, oldest first. -/
def State.window (s : State) : List (Nat × Instr) :=
  s.memwb.entry ++ s.exmem.entry ++ s.idex.entry ++ s.ifid.entry

/-- The non-zero words of the data memory in a list of candidate word indices, as the footer lists them:
`(byteStart, byteEnd, value)` (10 R46, 20 R54). -/
def footerWords (m : Memory) : List Nat → List (Nat × Nat × Word)
  | [] => []
  | w :: t => if m.word w = 0#32 then footerWords m t else (4 * w, 4 * w + 3, m.word w) :: footerWords m t

/-- The footer's memory list (10 R46): "all non-zero memory words", in rising order. -/
def State.footer (s : State) : List (Nat × Nat × Word) :=
  footerWords s.dmem ((s.dmem.map (fun c => c.1 / 4)).dedup)

/-- The footer's retirement counts, one for each program index in order (10 R33, R46). -/
def State.retiredCounts (s : State) : List Nat := (List.range s.program.len).map (fun k => Counts.at s.retired k)

/-- The two lines of a trace record, as 40 R125 quotes them: 32 decimal register values (signed, 10 R21), then `0` or
`1 <wordAddress> <value>`. -/
def TraceRecord.lines (r : TraceRecord) : String × String :=
  (String.intercalate " " (r.regs.toList.map (fun v => toString (s32 v))),
   match r.store with
   | none => "0"
   | some e => "1 " ++ toString e.word ++ " " ++ toString (s32 e.value))

end Sys2Proof.Machine
end

