-- ==== Sys2Proof/Machine/Operands.lean ====
section
/-! DEFINITION. The operand forms: source and destination registers (30 R75), the fields ID loads from them (40 R112),
the effective address (43 R200) and target resolution (42 R181). -/

namespace Sys2Proof.Machine

/-- A destination of register 0 counts as none (10 R23, 30 R75). -/
def normDest (r : Reg) : Option Reg := if r = 0#5 then none else some r

/-- `srcs(i)`: the registers the instruction reads, in the order they load the latch fields (30 R75). -/
def srcsOf : Instr → List Reg
  | .add _ rs rt => [rs, rt]
  | .sub _ rs rt => [rs, rt]
  | .mul _ rs rt => [rs, rt]
  | .slt _ rs rt => [rs, rt]
  | .addi _ rs _ => [rs]
  | .lw _ _ base => [base]
  | .sw rt _ base => [base, rt]
  | .beq rs rt _ => [rs, rt]
  | .bne rs rt _ => [rs, rt]
  | .j _ => []

/-- `dest(i)`: the register the instruction writes (30 R75). -/
def destOf : Instr → Option Reg
  | .add rd _ _ => normDest rd
  | .sub rd _ _ => normDest rd
  | .mul rd _ _ => normDest rd
  | .slt rd _ _ => normDest rd
  | .addi rt _ _ => normDest rt
  | .lw rt _ _ => normDest rt
  | .sw _ _ _ => none
  | .beq _ _ _ => none
  | .bne _ _ _ => none
  | .j _ => none

/-- The instruction is `Lw _ _ _` (40 R108). -/
def isLw : Instr → Bool
  | .lw _ _ _ => true
  | _ => false

/-- The instruction is `Sw _ _ _` (40 R104). -/
def isSw : Instr → Bool
  | .sw _ _ _ => true
  | _ => false

/-- The target of a control transfer (42 R180). -/
def transferTarget : Instr → Option Target
  | .beq _ _ t => some t
  | .bne _ _ t => some t
  | .j t => some t
  | _ => none

/-- The effective address of base plus byte offset: a mathematical integer, not wrapped (40 R112, 43 R200). -/
def effAddr (base : Word) (off : Int) : Int := s32 base + off

/-- The operand fields that ID loads, `v r` being the value delivered for source register `r` (40 R112, 30 R75). -/
def loadOperands (v : Reg → Word) (F : InFlight) : InFlight :=
  match F.ins with
  | .add _ rs rt => { F with a := v rs, b := v rt }
  | .sub _ rs rt => { F with a := v rs, b := v rt }
  | .mul _ rs rt => { F with a := v rs, b := v rt }
  | .slt _ rs rt => { F with a := v rs, b := v rt }
  | .addi _ rs _ => { F with a := v rs }
  | .lw _ off base => { F with addr := effAddr (v base) off }
  | .sw rt off base => { F with addr := effAddr (v base) off, sdata := v rt }
  | .beq rs rt _ => { F with a := v rs, b := v rt }
  | .bne rs rt _ => { F with a := v rs, b := v rt }
  | .j _ => F

/-- The index a target names, before its range is checked (42 R181): a label must be defined exactly once. -/
def targetIndex (t : Target) (P : Program) : Option Int :=
  match t with
  | .idx n => some n
  | .sym name =>
    match labelOf P name with
    | some (.defined n) => some n
    | some .dup => none
    | none => none

/-- `resolveTarget(t, P)` (42 R181): `none` raises InvalidLabel. A target of len is valid. -/
def resolveTarget (t : Target) (P : Program) : Option Nat :=
  match targetIndex t P with
  | some n => if 0 ≤ n ∧ n ≤ P.len then some n.toNat else none
  | none => none

end Sys2Proof.Machine
end

