-- ==== Sys2Proof/Machine/Stages.lean ====
section
/-! DEFINITION. The five stages, the hazard detection unit and the forwarding multiplexer (spec/40_pipeline_engine.md
sections 2 to 6), and what each instruction does in EX and MEM (spec/41_arithmetic.md, 42_control.md, 43_loadstore.md).
A primed name of the spec is the value the cycle computes. -/

namespace Sys2Proof.Machine

/-! ### WB -/

/-- What WB leaves: `Rw` and `retired'`. -/
structure WbOut where
  regs : Regs
  retired : Counts
  deriving DecidableEq, Repr

/-- WB (40 R103). -/
def wbStage (memwb : Latch) (R : Regs) (retired : Counts) : WbOut :=
  match memwb with
  | .bubble => ⟨R, retired⟩
  | .full F =>
    ⟨match F.dest with
      | some r => writeReg R r F.res
      | none => R,
     retired.bump F.idx⟩

/-! ### MEM -/

/-- What MEM leaves: `MEMWB'`, `DMEM'` and the store event. -/
structure MemOut where
  latch : Latch
  dmem : Memory
  store : Option StoreEvent
  deriving DecidableEq, Repr

/-- MEM of `lw` (43 R201). The address has been used and is cleared, as 10 R34 asks for a field that 10 R38 does not
list (log 8). -/
def memLw (F : InFlight) (dmem : Memory) : Except ErrRecord MemOut :=
  if validAddr F.addr then .ok ⟨.full { F with res := memRead dmem F.addr, addr := 0 }, dmem, none⟩
  else .error ⟨.invalidAddress, F.idx⟩

/-- MEM of `sw` (43 R202): the word is written and the store event says so. -/
def memSw (F : InFlight) (dmem : Memory) : Except ErrRecord MemOut :=
  if validAddr F.addr then
    .ok ⟨.full { F with addr := 0, sdata := 0#32 }, memWrite dmem F.addr F.sdata, some ⟨wordIndex F.addr, F.sdata⟩⟩
  else .error ⟨.invalidAddress, F.idx⟩

/-- MEM of every other instruction passes the latch through (40 R104). -/
def memPass (F : InFlight) (dmem : Memory) : Except ErrRecord MemOut := .ok ⟨.full F, dmem, none⟩

/-- MEM (40 R104). -/
def memStage (exmem : Latch) (dmem : Memory) : Except ErrRecord MemOut :=
  match exmem with
  | .bubble => .ok ⟨.bubble, dmem, none⟩
  | .full F =>
    match F.ins with
    | .lw _ _ _ => memLw F dmem
    | .sw _ _ _ => memSw F dmem
    | .add _ _ _ => memPass F dmem
    | .sub _ _ _ => memPass F dmem
    | .mul _ _ _ => memPass F dmem
    | .slt _ _ _ => memPass F dmem
    | .addi _ _ _ => memPass F dmem
    | .beq _ _ _ => memPass F dmem
    | .bne _ _ _ => memPass F dmem
    | .j _ => memPass F dmem

/-! ### EX -/

/-- What EX leaves: `EXMEM'` and `redirect`. -/
structure ExOut where
  latch : Latch
  redirect : Option Nat
  deriving DecidableEq, Repr

/-- `alu` of `add` (41 R161, R166). -/
def aluAdd (a b : Word) : Word := wrap32 (s32 a + s32 b)

/-- `alu` of `sub` (41 R162, R166). -/
def aluSub (a b : Word) : Word := wrap32 (s32 a - s32 b)

/-- `alu` of `mul`: the low word of the product (41 R163, R166). -/
def aluMul (a b : Word) : Word := wrap32 (s32 a * s32 b)

/-- `alu` of `slt` (41 R164, R166). -/
def aluSlt (a b : Word) : Word := ltSigned a b

/-- `alu` of `addi` (41 R165, R166). -/
def aluAddi (a : Word) (imm : Int) : Word := wrap32 (s32 a + imm)

/-- EX of an arithmetic instruction: `res` is set and nothing is redirected (40 R105). The operands have been used and
are cleared, as 10 R34 asks for fields that 10 R37 does not list (log 8). -/
def exResult (F : InFlight) (v : Word) : Except ErrRecord ExOut :=
  .ok ⟨.full { F with a := 0#32, b := 0#32, res := v }, none⟩

/-- EX of `lw` and `sw` passes the latch through (40 R105, 43 R200). -/
def exPass (F : InFlight) : Except ErrRecord ExOut := .ok ⟨.full F, none⟩

/-- EX of a control transfer with target `t` and outcome `taken` (40 R105, 42 R181): the target is resolved whether or
not the branch is taken. -/
def exTransfer (F : InFlight) (t : Target) (taken : Bool) (P : Program) : Except ErrRecord ExOut :=
  match resolveTarget t P with
  | none => .error ⟨.invalidLabel, F.idx⟩
  | some n => .ok ⟨.full { F with a := 0#32, b := 0#32 }, if taken then some n else none⟩

/-- EX (40 R105). -/
def exStage (idex : Latch) (P : Program) : Except ErrRecord ExOut :=
  match idex with
  | .bubble => .ok ⟨.bubble, none⟩
  | .full F =>
    match F.ins with
    | .add _ _ _ => exResult F (aluAdd F.a F.b)
    | .sub _ _ _ => exResult F (aluSub F.a F.b)
    | .mul _ _ _ => exResult F (aluMul F.a F.b)
    | .slt _ _ _ => exResult F (aluSlt F.a F.b)
    | .addi _ _ imm => exResult F (aluAddi F.a imm)
    | .lw _ _ _ => exPass F
    | .sw _ _ _ => exPass F
    | .beq _ _ t => exTransfer F t (condBeq F.a F.b) P
    | .bne _ _ t => exTransfer F t (condBne F.a F.b) P
    | .j t => exTransfer F t condJ P

/-! ### Hazard detection unit and forwarding multiplexer -/

/-- `loadUse(IFID, EXMEM')` (40 R108). -/
def loadUse (ifid exmem' : Latch) : Bool :=
  match ifid, exmem' with
  | .full F, .full G =>
    match G.dest with
    | some r => isLw G.ins && (srcsOf F.ins).contains r
    | none => false
  | _, _ => false

/-- The value a latch forwards for register `r`, if its instruction writes `r` (40 R110). -/
def Latch.forwards (l : Latch) (r : Reg) : Option Word :=
  match l with
  | .bubble => none
  | .full G => if G.dest = some r then some G.res else none

/-- The forwarding multiplexer (40 R110): FWD_EX before FWD_MEM before the register file. -/
def fwd (r : Reg) (exmem' memwb' : Latch) (rw : Regs) : Word :=
  if r = 0#5 then 0#32
  else
    match exmem'.forwards r with
    | some v => v
    | none =>
      match memwb'.forwards r with
      | some v => v
      | none => readReg rw r

/-! ### ID -/

/-- ID decode (40 R112). -/
def idDecode (F : InFlight) (exmem' memwb' : Latch) (rw : Regs) : Latch :=
  .full (loadOperands (fun r => fwd r exmem' memwb' rw) { idx := F.idx, ins := F.ins, dest := destOf F.ins })

/-- `IDEX'` (40 R106, R107, R112, R113): a bubble under a redirect, with an empty input, or on a stall. -/
def idStage (redirect : Option Nat) (stall : Bool) (ifid exmem' memwb' : Latch) (rw : Regs) : Latch :=
  match redirect with
  | some _ => .bubble
  | none =>
    match ifid with
    | .bubble => .bubble
    | .full F => if stall then .bubble else idDecode F exmem' memwb' rw

/-! ### IF -/

/-- What IF leaves: `IFID'` and `PC'`. -/
structure IfOut where
  ifid : Latch
  pc : Nat
  deriving DecidableEq, Repr

/-- IF, the PC redirector and the flush controller, in the priority of 40 R119: redirect (R117, R118), then stall
(R113), then fetch (R114, R115) or past the end (R116). `fetched` is what the instruction store answers at the PC. -/
def ifStage (fetched : Option Slot) (redirect : Option Nat) (stall : Bool) (ifid : Latch) (pc : Nat) :
    Except ErrRecord IfOut :=
  match redirect with
  | some n => .ok ⟨.bubble, n⟩
  | none =>
    if stall then .ok ⟨ifid, pc⟩
    else
      match fetched with
      | some (.ok i) => .ok ⟨.full { idx := pc, ins := i }, pc + 1⟩
      | some (.bad k) => .error ⟨badErr k, pc⟩
      | none => .ok ⟨.bubble, pc⟩

end Sys2Proof.Machine
end

