-- ==== Sys2Proof/Machine/Engine.lean ====
section
/-! DEFINITION. One clock cycle (spec/40_pipeline_engine.md R126), the run loop's body (40 R123), and the passage of one
instruction through the stages, which is what `exec` runs (log 5). -/

namespace Sys2Proof.Machine

/-- One clock cycle (40 R126), given what the instruction store answers at the PC. Each `abort` keeps what the stages
before the raising one have done and nothing else (40 R124). A cycle that does not abort emits one trace record (40
R125) and loads the latches and the PC together (40 R120). -/
def cycle (fetched : Option Slot) (s : State) : State :=
  let wb := wbStage s.memwb s.regs s.retired
  let s1 : State := { s with regs := wb.regs, retired := wb.retired, cycles := s.cycles + 1 }
  match memStage s.exmem s.dmem with
  | .error e => s1.abort e
  | .ok m =>
    let s2 : State := { s1 with dmem := m.dmem }
    match exStage s.idex s.program with
    | .error e => s2.abort e
    | .ok x =>
      let stall := x.redirect.isNone && loadUse s.ifid x.latch
      match ifStage fetched x.redirect stall s.ifid s.pc with
      | .error e => s2.abort e
      | .ok f =>
        { s2 with
          memwb := m.latch
          exmem := x.latch
          idex := idStage x.redirect stall s.ifid x.latch m.latch wb.regs
          ifid := f.ifid
          pc := f.pc
          trace := ⟨regView wb.regs, m.store⟩ :: s.trace }

/-- One turn of the core (40 R123, 70 R250): a terminated core stays as it is (10 R30); before cycle 1 the program's
size is checked (60 R225); a drained core ends in Success with no further cycle (60 R226); otherwise one clock cycle. -/
def turn (s : State) : State :=
  if s.status ≠ .running then s
  else if s.cycles = 0 ∧ Config.imemMax < s.program.len then s.abort ⟨.memoryLimitExceeded, s.program.len⟩
  else if s.drained then s.succeed
  else cycle s.slotAtPc s

/-- `k` turns. -/
def turns : Nat → State → State
  | 0, s => s
  | k + 1, s => turns k (turn s)

/-- Clock cycles with nothing offered to IF, until the latches are empty or the run has ended: at most `fuel` of them.
Five are always enough (`drain_settles`, Laws/Engine.lean). -/
def drainFor : Nat → State → State
  | 0, s => s
  | fuel + 1, s =>
    if s.status = .running ∧ ¬ s.latchesEmpty then drainFor fuel (cycle none s) else s

/-- The instructions in flight complete, and nothing is fetched behind them. -/
def drain (s : State) : State := drainFor 5 s

/-- The passage of instruction `i`: the clock cycle in which the instruction store answers IF with `i`, and then the
cycles that take what is in flight through ID, EX, MEM and WB with nothing fetched behind it. A terminated core takes
no cycle (10 R30). DESIGN CHOICE (log 5): `i` is offered whatever the program holds at the PC, so also where the store
holds another slot there, and where `PC ≥ len` and the core's IF fetches nothing (40 R116); the PC then passes len and
an index of len or more retires. Nor does it make the size check: with `cycles = 0` and `len > 2^18`, where the core
ends the run with no cycle (60 R225), it runs the cycles all the same. `step` does neither: it offers `slotAtPc`, and
`turn` makes the check. -/
def passage (i : Instr) (s : State) : State :=
  if s.status = .running then drain (cycle (some (.ok i)) s) else s

/-! ### The signals of the next cycle (10 R40) -/

/-- What MEM and EX of the next cycle give, where neither raises. -/
def State.exNow (s : State) : Option ExOut :=
  match memStage s.exmem s.dmem with
  | .error _ => none
  | .ok _ =>
    match exStage s.idex s.program with
    | .error _ => none
    | .ok x => some x

/-- The redirect signal of the next cycle (40 R117). -/
def State.redirectNow (s : State) : Option Nat :=
  match s.exNow with
  | some x => x.redirect
  | none => none

/-- The stall signal of the next cycle (40 R108). -/
def State.stallNow (s : State) : Bool :=
  match s.exNow with
  | some x => x.redirect.isNone && loadUse s.ifid x.latch
  | none => false

end Sys2Proof.Machine
end

