-- ==== Sys2Proof/Machine/Arithmetic.lean ====
section
/-! DEFINITION. The arithmetic family (spec/41_arithmetic.md): the passage of each instruction through the stages. What
each computes in EX is `aluAdd`, `aluSub`, `aluMul`, `aluSlt`, `aluAddi` (Machine/Stages.lean). -/

namespace Sys2Proof.Machine

/-- `add rd, rs, rt` (41 R161). -/
def execAdd (rd rs rt : Reg) (s : State) : Host.Outcome State Fault Refusal := .next (passage (.add rd rs rt) s)

/-- `sub rd, rs, rt` (41 R162). -/
def execSub (rd rs rt : Reg) (s : State) : Host.Outcome State Fault Refusal := .next (passage (.sub rd rs rt) s)

/-- `slt rd, rs, rt` (41 R164). -/
def execSlt (rd rs rt : Reg) (s : State) : Host.Outcome State Fault Refusal := .next (passage (.slt rd rs rt) s)

/-- `mul rd, rs, rt` (41 R163). -/
def execMul (rd rs rt : Reg) (s : State) : Host.Outcome State Fault Refusal := .next (passage (.mul rd rs rt) s)

/-- `addi rt, rs, imm` (41 R165). -/
def execAddi (rt rs : Reg) (imm : Int) (s : State) : Host.Outcome State Fault Refusal :=
  .next (passage (.addi rt rs imm) s)

end Sys2Proof.Machine
end

