-- ==== Sys2Proof/Machine/Control.lean ====
section
/-! DEFINITION. The control family (spec/42_control.md): the passage of each instruction through the stages. The target
is resolved by `resolveTarget` and the outcome by `condBeq`, `condBne`, `condJ`, both in EX (Machine/Stages.lean). -/

namespace Sys2Proof.Machine

/-- `beq rs, rt, label` (42 R182). -/
def execBeq (rs rt : Reg) (t : Target) (s : State) : Host.Outcome State Fault Refusal := .next (passage (.beq rs rt t) s)

/-- `bne rs, rt, label` (42 R183). -/
def execBne (rs rt : Reg) (t : Target) (s : State) : Host.Outcome State Fault Refusal := .next (passage (.bne rs rt t) s)

/-- `j label` (42 R184). -/
def execJ (t : Target) (s : State) : Host.Outcome State Fault Refusal := .next (passage (.j t) s)

end Sys2Proof.Machine
end

