-- ==== Sys2Proof/Machine/LoadStore.lean ====
section
/-! DEFINITION. The load and store family (spec/43_loadstore.md): the passage of each instruction through the stages.
ID computes the address (`effAddr`), MEM checks it and performs the access (`memLw`, `memSw`; Machine/Stages.lean). -/

namespace Sys2Proof.Machine

/-- `lw rt, off(base)` (43 R201). -/
def execLw (rt : Reg) (off : Int) (base : Reg) (s : State) : Host.Outcome State Fault Refusal :=
  .next (passage (.lw rt off base) s)

/-- `sw rt, off(base)` (43 R202). -/
def execSw (rt : Reg) (off : Int) (base : Reg) (s : State) : Host.Outcome State Fault Refusal :=
  .next (passage (.sw rt off base) s)

end Sys2Proof.Machine
end

