-- ==== Sys2Proof/Machine/Dispatch.lean ====
section
/-! DEFINITION. The meaning of each instruction, one arm per constructor of `Instr`. -/

namespace Sys2Proof.Machine

def exec (i : Instr) (s : State) : Host.Outcome State Fault Refusal :=
  match i with
  | .add rd rs rt => Sys2Proof.Machine.execAdd rd rs rt s
  | .sub rd rs rt => Sys2Proof.Machine.execSub rd rs rt s
  | .slt rd rs rt => Sys2Proof.Machine.execSlt rd rs rt s
  | .mul rd rs rt => Sys2Proof.Machine.execMul rd rs rt s
  | .beq rs rt t => Sys2Proof.Machine.execBeq rs rt t s
  | .bne rs rt t => Sys2Proof.Machine.execBne rs rt t s
  | .j t => Sys2Proof.Machine.execJ t s
  | .lw rt off base => Sys2Proof.Machine.execLw rt off base s
  | .sw rt off base => Sys2Proof.Machine.execSw rt off base s
  | .addi rt rs imm => Sys2Proof.Machine.execAddi rt rs imm s

end Sys2Proof.Machine
end

