-- ==== Sys2Proof/Machine/Step.lean ====
section
/-! DEFINITION. The step of the core: one clock cycle, or the run loop's own bookkeeping where no cycle is taken (40
R100, R123; log 4). -/

namespace Sys2Proof.Machine

/-- One step (40 R100, R123): `turn`. It always answers a next state (log 6). -/
def step (s : State) : Host.Outcome State Fault Refusal := .next (turn s)

/-- The state with the instruction word stored at the PC and an empty, running pipeline in front of it, so that the
next step fetches exactly that word (log 7). -/
def State.withFetchWord (s : State) (nbits w : Nat) : State :=
  { s with
    program := { s.program with store := putEntry s.program.store s.pc (tableEntry nbits w) }
    status := .running
    ifid := .bubble
    idex := .bubble
    exmem := .bubble
    memwb := .bubble }

end Sys2Proof.Machine
end

