-- ==== Sys2Proof/Machine/Sequential.lean ====
section
/-! DEFINITION. One-at-a-time execution, the `seq(P)` of spec/40_pipeline_engine.md R127: the architectural effect of
each instruction as spec/41_arithmetic.md, 42_control.md and 43_loadstore.md give it, with no pipeline. The core does
not run this; statements compare the core with it. -/

namespace Sys2Proof.Machine

/-- What one-at-a-time execution changes: `x`, `pc`, the data memory, and how often each instruction was executed. -/
structure Arch where
  regs : Regs
  pc : Nat
  dmem : Memory
  executed : Counts
  deriving DecidableEq, Repr

/-- Before the first instruction (10 R44). -/
def Arch.start : Arch := ⟨State.reset.regs, State.reset.pc, State.reset.dmem, []⟩

/-- The part of the core's state that one-at-a-time execution shares with it. -/
def State.arch (s : State) : Arch := ⟨s.regs, s.pc, s.dmem, s.retired⟩

/-- `x[r] <- v; pc <- pc + 1` (41 R161 to R165, 43 R201). -/
def Arch.setReg (a : Arch) (r : Reg) (v : Word) : Arch :=
  { a with regs := writeReg a.regs r v, pc := a.pc + 1, executed := a.executed.bump a.pc }

/-- `pc <- pc'` and nothing else (42 R182 to R184). -/
def Arch.goto (a : Arch) (pc' : Nat) : Arch := { a with pc := pc', executed := a.executed.bump a.pc }

/-- A transfer to `t` if `taken`, else to the next instruction; a target that does not resolve is an error either way
(42 R181 to R184). -/
def Arch.transfer (P : Program) (a : Arch) (t : Target) (taken : Bool) : Except ErrRecord Arch :=
  match resolveTarget t P with
  | none => .error ⟨.invalidLabel, a.pc⟩
  | some n => .ok (a.goto (if taken then n else a.pc + 1))

/-- The architectural effect of one instruction (41 R161 to R165, 42 R182 to R184, 43 R201, R202). -/
def archEffect (P : Program) (i : Instr) (a : Arch) : Except ErrRecord Arch :=
  let x := readReg a.regs
  match i with
  | .add rd rs rt => .ok (a.setReg rd (wrap32 (s32 (x rs) + s32 (x rt))))
  | .sub rd rs rt => .ok (a.setReg rd (wrap32 (s32 (x rs) - s32 (x rt))))
  | .mul rd rs rt => .ok (a.setReg rd (wrap32 (s32 (x rs) * s32 (x rt))))
  | .slt rd rs rt => .ok (a.setReg rd (if s32 (x rs) < s32 (x rt) then 1#32 else 0#32))
  | .addi rt rs imm => .ok (a.setReg rt (wrap32 (s32 (x rs) + imm)))
  | .lw rt off base =>
    if validAddr (s32 (x base) + off) then .ok (a.setReg rt (memRead a.dmem (s32 (x base) + off)))
    else .error ⟨.invalidAddress, a.pc⟩
  | .sw rt off base =>
    if validAddr (s32 (x base) + off) then
      .ok { a.goto (a.pc + 1) with dmem := memWrite a.dmem (s32 (x base) + off) (x rt) }
    else .error ⟨.invalidAddress, a.pc⟩
  | .beq rs rt t => a.transfer P t (decide (x rs = x rt))
  | .bne rs rt t => a.transfer P t (decide (x rs ≠ x rt))
  | .j t => a.transfer P t true

/-- `seq(P)` for at most `fuel` instructions: it ends where the program has no slot at the pc (40 R127), and with an
error where the slot or the instruction has one. -/
def seqRun (P : Program) : Nat → Arch → Except ErrRecord Arch
  | 0, a => .ok a
  | fuel + 1, a =>
    match (P.store[a.pc]?).map (Entry.slotAt a.pc) with
    | none => .ok a
    | some (.bad k) => .error ⟨badErr k, a.pc⟩
    | some (.ok i) =>
      match archEffect P i a with
      | .error e => .error e
      | .ok b => seqRun P fuel b

end Sys2Proof.Machine
end

