-- ==== Sys2Proof/Safety.lean ====
section
/-! DEFINITION. The terms in which statements speak about the core: quiet states, the state after an undisturbed passage
(spec/70_reset_and_hazards.md R258), the invariants of spec/40_pipeline_engine.md R128, and counts along a run. -/

namespace Sys2Proof.Machine

/-- Running, with nothing in flight: where one-at-a-time execution (40 R127) stands between two instructions. -/
abbrev State.quiet (s : State) : Prop := s.status = .running ∧ s.latchesEmpty

/-- The core takes a clock cycle at its next step: it runs, the program has passed the size check (60 R225), and it is
not drained (40 R123). -/
abbrev State.clocked (s : State) : Prop :=
  s.status = .running ∧ ¬ (s.cycles = 0 ∧ Config.imemMax < s.program.len) ∧ ¬ s.drained

/-- The trace record of a cycle in which no register and no memory word changes. -/
def State.idleRecord (s : State) : TraceRecord := ⟨regView s.regs, none⟩

/-- The state after the passage of one instruction through an otherwise empty pipeline (70 R258): fetched in cycle f,
`store` reported in the record of cycle f+3, the registers `R` in that of cycle f+4, in which it retires. -/
def State.completed (s : State) (R : Regs) (pc : Nat) (dmem : Memory) (store : Option StoreEvent) : State :=
  { s with
    regs := R
    pc := pc
    dmem := dmem
    cycles := s.cycles + 5
    retired := s.retired.bump s.pc
    trace := ⟨regView R, none⟩ :: ⟨regView s.regs, store⟩ :: s.idleRecord :: s.idleRecord :: s.idleRecord :: s.trace }

/-- The operand record that ID makes of an instruction at the PC of a quiet state: the sources come from the register
file (40 R112). -/
def State.decoded (s : State) (i : Instr) : InFlight :=
  loadOperands (readReg s.regs) { idx := s.pc, ins := i, dest := destOf i }

/-- The state an InvalidAddress abort leaves when the load or store `i` is alone in the pipeline: it was fetched and
decoded and passed EX, and its fourth cycle raised in MEM (40 R124). -/
def State.stoppedInMem (s : State) (i : Instr) : State :=
  { s with
    pc := s.pc + 1
    exmem := .full (s.decoded i)
    cycles := s.cycles + 4
    status := .invalidAddress
    err := some ⟨.invalidAddress, s.pc⟩
    trace := s.idleRecord :: s.idleRecord :: s.idleRecord :: s.trace }

/-- The state an InvalidLabel abort leaves when the transfer `i` is alone in the pipeline: it was fetched and decoded,
and its third cycle raised in EX (40 R124). -/
def State.stoppedInEx (s : State) (i : Instr) : State :=
  { s with
    pc := s.pc + 1
    idex := .full (s.decoded i)
    cycles := s.cycles + 3
    status := .invalidLabel
    err := some ⟨.invalidLabel, s.pc⟩
    trace := s.idleRecord :: s.idleRecord :: s.trace }

/-- The store event of the instruction that is in MEM, a `sw` with a valid address (10 R46, 43 R202). -/
def Latch.storeEvent : Latch → Option StoreEvent
  | .bubble => none
  | .full F => if isSw F.ins then some ⟨wordIndex F.addr, F.sdata⟩ else none

/-- The data memory after the access of the instruction that is in MEM, its address being valid (43 R202). -/
def Latch.storeTo (m : Memory) : Latch → Memory
  | .bubble => m
  | .full F => if isSw F.ins then memWrite m F.addr F.sdata else m

/-! ### Latch contents (10 R35 to R38) -/

/-- IF/ID holds an index and an instruction and nothing else (10 R35). -/
def InFlight.ifidForm (F : InFlight) : Prop := F = { idx := F.idx, ins := F.ins }

/-- The fields every latch after IF/ID lists: index, instruction and destination (10 R36 to R38). -/
def InFlight.bare (F : InFlight) : InFlight := { idx := F.idx, ins := F.ins, dest := destOf F.ins }

/-- ID/EX holds the operand fields of its instruction and nothing else (10 R36). -/
def InFlight.idexForm (F : InFlight) : Prop :=
  match F.ins with
  | .add _ _ _ => F = { F.bare with a := F.a, b := F.b }
  | .sub _ _ _ => F = { F.bare with a := F.a, b := F.b }
  | .mul _ _ _ => F = { F.bare with a := F.a, b := F.b }
  | .slt _ _ _ => F = { F.bare with a := F.a, b := F.b }
  | .addi _ _ _ => F = { F.bare with a := F.a }
  | .lw _ _ _ => F = { F.bare with addr := F.addr }
  | .sw _ _ _ => F = { F.bare with addr := F.addr, sdata := F.sdata }
  | .beq _ _ _ => F = { F.bare with a := F.a, b := F.b }
  | .bne _ _ _ => F = { F.bare with a := F.a, b := F.b }
  | .j _ => F = F.bare

/-- EX/MEM holds the result, or the address and store data, and nothing else (10 R37). -/
def InFlight.exmemForm (F : InFlight) : Prop :=
  match F.ins with
  | .add _ _ _ => F = { F.bare with res := F.res }
  | .sub _ _ _ => F = { F.bare with res := F.res }
  | .mul _ _ _ => F = { F.bare with res := F.res }
  | .slt _ _ _ => F = { F.bare with res := F.res }
  | .addi _ _ _ => F = { F.bare with res := F.res }
  | .lw _ _ _ => F = { F.bare with addr := F.addr }
  | .sw _ _ _ => F = { F.bare with addr := F.addr, sdata := F.sdata }
  | .beq _ _ _ => F = F.bare
  | .bne _ _ _ => F = F.bare
  | .j _ => F = F.bare

/-- MEM/WB holds the result of the instructions that have one, and nothing else (10 R38). -/
def InFlight.memwbForm (F : InFlight) : Prop :=
  match F.ins with
  | .add _ _ _ => F = { F.bare with res := F.res }
  | .sub _ _ _ => F = { F.bare with res := F.res }
  | .mul _ _ _ => F = { F.bare with res := F.res }
  | .slt _ _ _ => F = { F.bare with res := F.res }
  | .addi _ _ _ => F = { F.bare with res := F.res }
  | .lw _ _ _ => F = { F.bare with res := F.res }
  | .sw _ _ _ => F = F.bare
  | .beq _ _ _ => F = F.bare
  | .bne _ _ _ => F = F.bare
  | .j _ => F = F.bare

/-- Every latch holds what 10 R34 to R38 list for it, and 0 elsewhere. -/
structure State.latchForms (s : State) : Prop where
  ifid : ∀ F, s.ifid = .full F → F.ifidForm
  idex : ∀ F, s.idex = .full F → F.idexForm
  exmem : ∀ F, s.exmem = .full F → F.exmemForm
  memwb : ∀ F, s.memwb = .full F → F.memwbForm

/-! ### Invariants -/

/-- The instruction of a latch is the one the program holds at the latch's index (40 R128, 10 R34). -/
def State.holds (s : State) (F : InFlight) : Prop :=
  (s.program.store[F.idx]?).map (Entry.slotAt F.idx) = some (.ok F.ins)

/-- The structural invariants of 40 R128: the PC lies in 0..len; a full IF/ID was fetched just before the PC; every
instruction in flight came from the program. -/
structure State.pipelineInv (s : State) : Prop where
  pcInRange : s.pc ≤ s.program.len
  pcAfterIfid : ∀ F, s.ifid = .full F → s.pc = F.idx + 1
  fromIfid : ∀ F, s.ifid = .full F → s.holds F
  fromIdex : ∀ F, s.idex = .full F → s.holds F
  fromExmem : ∀ F, s.exmem = .full F → s.holds F
  fromMemwb : ∀ F, s.memwb = .full F → s.holds F

/-- Register 0 is stored as 0 (10 R23). -/
abbrev State.regZero (s : State) : Prop := s.regs[0] = 0#32

/-- The data memory and the retirement counters keep their canonical form and their range (10 R33, R41). -/
structure State.storageInv (s : State) : Prop where
  memWf : Memory.wf s.dmem
  memRange : ∀ c ∈ s.dmem, c.1 < Config.dmemBytes
  countsWf : Counts.wf s.retired
  countsRange : ∀ c ∈ s.retired, c.1 < s.program.len

/-- `status` and `err` agree (10 R30, R31): an error record exactly on an error status, of the same kind. -/
def State.statusInv (s : State) : Prop :=
  match s.err with
  | none => s.status = .running ∨ s.status = .success
  | some e => s.status = e.kind.status

/-- One trace record has been emitted for every cycle that did not abort (40 R125, 10 R32). -/
def State.traceInv (s : State) : Prop :=
  match s.err with
  | none => s.trace.length = s.cycles
  | some e => if e.kind = .memoryLimitExceeded then s.trace = [] ∧ s.cycles = 0 else s.trace.length + 1 = s.cycles

/-! ### Counting along a run -/

/-- How many of the states before each of `k` turns satisfy `p`. -/
def countTurns (p : State → Bool) : Nat → State → Nat
  | 0, _ => 0
  | k + 1, s => (if p s then 1 else 0) + countTurns p k (turn s)

/-- The next cycle redirects to an instruction, not to the end of the program (the `T` of 70 R259). -/
def State.redirectsInside (s : State) : Bool :=
  match s.redirectNow with
  | some n => decide (n ≠ s.program.len)
  | none => false

/-- The latch holds no control transfer. -/
def Latch.noTransfer : Latch → Bool
  | .bubble => true
  | .full F => (transferTarget F.ins).isNone

end Sys2Proof.Machine
end

