-- ==== Sys2Proof/Certificates/Slice0/Obligations.lean ====
section
/-! DEFINITION. The statements about the core, for the provers. Each docstring names the rule of spec/ it formalises. -/

open Sys2Proof Sys2Proof.Machine

/-! ### The binary form (30 R77 to R84) -/

/-- Decoding the encoding of an instruction gives it back, at every program index (30 R81, R82, R83). -/
def Obligations.DecodeInvertsEncode : Prop :=
  ∀ (i : Instr) (k : Nat), i.encodable k = true → decodeWord (encode i k) k = .ok i

/-- Every word that decodes is the encoding of what it decodes to: no bit of an accepted word is ignored (30 R83, R84).
-/
def Obligations.EncodeInvertsDecode : Prop :=
  ∀ (w : Word) (k : Nat) (i : Instr),
    decodeWord w k = .ok i → i.wf = true ∧ i.encodable k = true ∧ encode i k = w

/-- A word that a row of the opcode map selects decodes to an instruction of that row; a word that no row selects is
`Bad SyntaxError`; the rows select disjoint sets of words (30 R82, R84). -/
def Obligations.OpcodeMapSelectsWhatTheDecoderReads : Prop :=
  ∀ (w : Word) (k : Nat),
    (∀ r ∈ opcodeMap, r.selects w = true → ∃ i, decodeWord w k = .ok i ∧ i.mnemonic = r.mnemonic) ∧
    ((∀ r ∈ opcodeMap, r.selects w = false) → decodeWord w k = .bad .syntaxError) ∧
    (∀ r ∈ opcodeMap, ∀ q ∈ opcodeMap, r.selects w = true → q.selects w = true → r = q)

/-- The decoder vectors of spec/95_test_vectors.md section 4, each at every index for which it is given. -/
def Obligations.SampleWordsDecode : Prop :=
  (∀ k : Nat,
    decodeWord 0x01095020#32 k = .ok (.add 10#5 8#5 9#5) ∧
    decodeWord 0x01095060#32 k = .bad .syntaxError ∧
    decodeWord 0x00000000#32 k = .bad .syntaxError ∧
    decodeWord 0x71096002#32 k = .ok (.mul 12#5 8#5 9#5) ∧
    decodeWord 0x08000009#32 k = .ok (.j (.idx 9)) ∧
    decodeWord 0x0C000000#32 k = .bad .syntaxError ∧
    decodeWord 0x8C080002#32 k = .ok (.lw 8#5 2 0#5) ∧
    decodeWord 0x2108FFFF#32 k = .ok (.addi 8#5 8#5 (-1)) ∧
    decodeWord 0xFFFFFFFF#32 k = .bad .syntaxError) ∧
  decodeWord 0x1500FFFD#32 4 = .ok (.bne 8#5 0#5 (.idx 2)) ∧
  decodeWord 0x11090002#32 2 = .ok (.beq 8#5 9#5 (.idx 5))

/-! ### Step and exec -/

/-- When the core takes a cycle and the store entry at the PC gives instruction `i` (a record as it is, a word through
the decoder), the step is the clock cycle in which IF is offered `i`; and `exec i` is that same cycle followed by the
drain of what is in flight (40 R100, R114; the shape of `exec` is the model's choice, log 5). -/
def Obligations.StepRunsTheFetchedInstruction : Prop :=
  (∀ (s : State) (w : Word), s.program.store[s.pc]? = some (.word w) → s.slotAtPc = some (decodeWord w s.pc)) ∧
  (∀ (s : State) (sl : Slot), s.program.store[s.pc]? = some (.slot sl) → s.slotAtPc = some sl) ∧
  (∀ (s : State) (i : Instr), s.clocked → s.slotAtPc = some (.ok i) →
    step s = .next (cycle (some (.ok i)) s) ∧ exec i s = .next (drain (cycle (some (.ok i)) s)))

/-- The state with a word stored where the step fetches (log 7) makes the next step fetch what that word decodes to, at
the PC, from an empty pipeline. -/
def Obligations.StoredWordIsFetchedNext : Prop :=
  ∀ (s : State) (w : Nat) (i : Instr),
    decodeWord (BitVec.ofNat 32 w) s.pc = .ok i →
    ¬ (s.cycles = 0 ∧ Config.imemMax < (s.withFetchWord 32 w).program.len) →
    ∃ t, step (s.withFetchWord 32 w) = .next t ∧ t.status = .running ∧
      t.ifid = .full { idx := s.pc, ins := i } ∧ t.pc = s.pc + 1 ∧ t.regs = s.regs ∧ t.dmem = s.dmem

/-! ### Results of the instructions, each alone in the pipeline

In this part and the next two, that `exec` is the whole passage of the instruction is the model's choice (log 5); the
cycles and the trace records of the passage are those of 70 R258, which the spec marks as derived. -/

/-- 41 R161: `x[rd] <- wrap32(s32(x[rs]) + s32(x[rt]))`; pc <- pc + 1. A write to register 0 is discarded (10 R23). The
passage is the model's choice (log 5). -/
def Obligations.AddWritesTheSum : Prop :=
  ∀ (s : State) (rd rs rt : Reg), s.quiet →
    exec (.add rd rs rt) s =
      .next (s.completed (writeReg s.regs rd (wrap32 (s32 (readReg s.regs rs) + s32 (readReg s.regs rt))))
        (s.pc + 1) s.dmem none)

/-- 41 R162: `x[rd] <- wrap32(s32(x[rs]) - s32(x[rt]))`; pc <- pc + 1. The passage is the model's choice (log 5). -/
def Obligations.SubWritesTheDifference : Prop :=
  ∀ (s : State) (rd rs rt : Reg), s.quiet →
    exec (.sub rd rs rt) s =
      .next (s.completed (writeReg s.regs rd (wrap32 (s32 (readReg s.regs rs) - s32 (readReg s.regs rt))))
        (s.pc + 1) s.dmem none)

/-- 41 R163: `x[rd] <- wrap32(s32(x[rs]) * s32(x[rt]))`; pc <- pc + 1. The passage is the model's choice (log 5). -/
def Obligations.MulWritesTheLowProduct : Prop :=
  ∀ (s : State) (rd rs rt : Reg), s.quiet →
    exec (.mul rd rs rt) s =
      .next (s.completed (writeReg s.regs rd (wrap32 (s32 (readReg s.regs rs) * s32 (readReg s.regs rt))))
        (s.pc + 1) s.dmem none)

/-- 41 R164: `x[rd] <- (s32(x[rs]) < s32(x[rt])) ? 1 : 0`; pc <- pc + 1. The passage is the model's choice (log 5). -/
def Obligations.SltWritesTheComparison : Prop :=
  ∀ (s : State) (rd rs rt : Reg), s.quiet →
    exec (.slt rd rs rt) s =
      .next (s.completed
        (writeReg s.regs rd (if s32 (readReg s.regs rs) < s32 (readReg s.regs rt) then 1#32 else 0#32))
        (s.pc + 1) s.dmem none)

/-- 41 R165: `x[rt] <- wrap32(s32(x[rs]) + imm)`; pc <- pc + 1. The passage is the model's choice (log 5). -/
def Obligations.AddiWritesTheSum : Prop :=
  ∀ (s : State) (rt rs : Reg) (imm : Int), s.quiet →
    exec (.addi rt rs imm) s =
      .next (s.completed (writeReg s.regs rt (wrap32 (s32 (readReg s.regs rs) + imm))) (s.pc + 1) s.dmem none)

/-- 43 R201: with a valid address `a = s32(x[base]) + off`, `x[rt] <- MemRead(a, 4)`; pc <- pc + 1. The passage is the
model's choice (log 5). -/
def Obligations.LwLoadsTheWord : Prop :=
  ∀ (s : State) (rt base : Reg) (off : Int), s.quiet →
    validAddr (s32 (readReg s.regs base) + off) = true →
    exec (.lw rt off base) s =
      .next (s.completed (writeReg s.regs rt (memRead s.dmem (s32 (readReg s.regs base) + off)))
        (s.pc + 1) s.dmem none)

/-- 43 R202: with a valid address `a = s32(x[base]) + off`, `MemWrite(a, 4, x[rt])` and the store event of it; pc <- pc
+ 1. The passage is the model's choice (log 5). -/
def Obligations.SwStoresTheWord : Prop :=
  ∀ (s : State) (rt base : Reg) (off : Int), s.quiet →
    validAddr (s32 (readReg s.regs base) + off) = true →
    exec (.sw rt off base) s =
      .next (s.completed s.regs (s.pc + 1)
        (memWrite s.dmem (s32 (readReg s.regs base) + off) (readReg s.regs rt))
        (some ⟨wordIndex (s32 (readReg s.regs base) + off), readReg s.regs rt⟩))

/-- 42 R182: `if x[rs] = x[rt] then pc <- n else pc <- pc + 1`, for a target that resolves to `n`. The passage is the
model's choice (log 5). -/
def Obligations.BeqTakesEqualOperands : Prop :=
  ∀ (s : State) (rs rt : Reg) (t : Target) (n : Nat), s.quiet → resolveTarget t s.program = some n →
    exec (.beq rs rt t) s =
      .next (s.completed s.regs (if readReg s.regs rs = readReg s.regs rt then n else s.pc + 1) s.dmem none)

/-- 42 R183: `if x[rs] ≠ x[rt] then pc <- n else pc <- pc + 1`, for a target that resolves to `n`. The passage is the
model's choice (log 5). -/
def Obligations.BneTakesUnequalOperands : Prop :=
  ∀ (s : State) (rs rt : Reg) (t : Target) (n : Nat), s.quiet → resolveTarget t s.program = some n →
    exec (.bne rs rt t) s =
      .next (s.completed s.regs (if readReg s.regs rs ≠ readReg s.regs rt then n else s.pc + 1) s.dmem none)

/-- 42 R184: `pc <- n`, for a target that resolves to `n`. The passage is the model's choice (log 5). -/
def Obligations.JumpTakesTheTarget : Prop :=
  ∀ (s : State) (t : Target) (n : Nat), s.quiet → resolveTarget t s.program = some n →
    exec (.j t) s = .next (s.completed s.regs n s.dmem none)

/-! ### Errors an instruction raises, alone in the pipeline -/

/-- 60 R224, 40 R124: a load or store whose address is not valid aborts in its MEM cycle with `err =
Some(InvalidAddress, idx)`; no register and no memory byte changes and it does not retire. The passage is the model's
choice (log 5). -/
def Obligations.InvalidAddressAborts : Prop :=
  ∀ (s : State) (rt base : Reg) (off : Int), s.quiet →
    validAddr (s32 (readReg s.regs base) + off) = false →
    exec (.lw rt off base) s = .next (s.stoppedInMem (.lw rt off base)) ∧
    exec (.sw rt off base) s = .next (s.stoppedInMem (.sw rt off base))

/-- 60 R223, 42 R181: a control transfer whose target does not resolve aborts in its EX cycle with `err =
Some(InvalidLabel, idx)`, whatever its operands are, taken or not. The passage is the model's choice (log 5). -/
def Obligations.UnresolvedTargetAborts : Prop :=
  ∀ (s : State) (rs rt : Reg) (t : Target), s.quiet → resolveTarget t s.program = none →
    exec (.beq rs rt t) s = .next (s.stoppedInEx (.beq rs rt t)) ∧
    exec (.bne rs rt t) s = .next (s.stoppedInEx (.bne rs rt t)) ∧
    exec (.j t) s = .next (s.stoppedInEx (.j t))

/-- 42 R181: a target resolves to `n` exactly when it is an index in 0..len, or a name that the label table defines
once, with an index in 0..len; a duplicate or absent name and an index outside 0..len resolve to nothing. -/
def Obligations.TargetResolution : Prop :=
  ∀ (P : Program) (n : Nat),
    (∀ k : Int, resolveTarget (.idx k) P = some n ↔ k = n ∧ n ≤ P.len) ∧
    (∀ k : Int, (k < 0 ∨ (P.len : Int) < k) → resolveTarget (.idx k) P = none) ∧
    (∀ name, P.labels.lookup name = some (.defined n) →
      resolveTarget (.sym name) P = if n ≤ P.len then some n else none) ∧
    (∀ name, P.labels.lookup name = some .dup → resolveTarget (.sym name) P = none) ∧
    (∀ name, P.labels.lookup name = none → resolveTarget (.sym name) P = none)

/-! ### Frames -/

/-- What `add`, `sub`, `mul`, `slt` and `addi` leave unchanged, alone in the pipeline: every register but the
destination, every byte of memory, status, err, the latches, the program, and the counts of other instructions (41
R160, 10 R24). The passage is the model's choice (log 5). -/
def Obligations.ArithmeticFrame : Prop :=
  ∀ (s t : State) (i : Instr), s.quiet → isLw i = false → isSw i = false → transferTarget i = none →
    exec i s = .next t →
    (∀ r, destOf i ≠ some r → readReg t.regs r = readReg s.regs r) ∧
    (∀ a, Memory.byteAt t.dmem a = Memory.byteAt s.dmem a) ∧
    t.status = s.status ∧ t.err = s.err ∧ t.ifid = s.ifid ∧ t.idex = s.idex ∧ t.exmem = s.exmem ∧ t.memwb = s.memwb ∧
    t.program = s.program ∧ (∀ k, k ≠ s.pc → Counts.at t.retired k = Counts.at s.retired k)

/-- What `lw` leaves unchanged, alone in the pipeline, with a valid address or not: every register but `rt`, every byte
of memory, IF/ID, ID/EX and MEM/WB, the program, and the counts of other instructions (43 R201, 10 R24). The passage is
the model's choice (log 5). -/
def Obligations.LwFrame : Prop :=
  ∀ (s t : State) (rt base : Reg) (off : Int), s.quiet → exec (.lw rt off base) s = .next t →
    (∀ r, r ≠ rt → readReg t.regs r = readReg s.regs r) ∧
    (∀ a, Memory.byteAt t.dmem a = Memory.byteAt s.dmem a) ∧
    t.ifid = s.ifid ∧ t.idex = s.idex ∧ t.memwb = s.memwb ∧
    t.program = s.program ∧ (∀ k, k ≠ s.pc → Counts.at t.retired k = Counts.at s.retired k)

/-- What `sw` leaves unchanged, alone in the pipeline: every register; every byte of memory outside the four bytes at
the effective address where that address is valid, and every byte where it is not (43 R202, 60 R224). The passage is
the model's choice (log 5). -/
def Obligations.SwFrame : Prop :=
  ∀ (s t : State) (rt base : Reg) (off : Int), s.quiet → exec (.sw rt off base) s = .next t →
    (∀ r, readReg t.regs r = readReg s.regs r) ∧
    (validAddr (effAddr (readReg s.regs base) off) = true →
      ∀ a : Nat, ((a : Int) < effAddr (readReg s.regs base) off ∨ effAddr (readReg s.regs base) off + 4 ≤ (a : Int)) →
        Memory.byteAt t.dmem a = Memory.byteAt s.dmem a) ∧
    (validAddr (effAddr (readReg s.regs base) off) = false →
      ∀ a, Memory.byteAt t.dmem a = Memory.byteAt s.dmem a) ∧
    t.ifid = s.ifid ∧ t.idex = s.idex ∧ t.memwb = s.memwb ∧
    t.program = s.program ∧ (∀ k, k ≠ s.pc → Counts.at t.retired k = Counts.at s.retired k)

/-- What `beq`, `bne` and `j` leave unchanged, alone in the pipeline, whether they are taken, not taken or raise: every
register, every byte of memory, IF/ID, EX/MEM and MEM/WB, the program, and the counts of other instructions (42 R180).
The passage is the model's choice (log 5). -/
def Obligations.ControlFrame : Prop :=
  ∀ (s t : State) (i : Instr) (tg : Target), s.quiet → transferTarget i = some tg → exec i s = .next t →
    (∀ r, readReg t.regs r = readReg s.regs r) ∧
    (∀ a, Memory.byteAt t.dmem a = Memory.byteAt s.dmem a) ∧
    t.ifid = s.ifid ∧ t.exmem = s.exmem ∧ t.memwb = s.memwb ∧
    t.program = s.program ∧ (∀ k, k ≠ s.pc → Counts.at t.retired k = Counts.at s.retired k)

/-! ### Registers and memory -/

/-- 10 R23: register 0 reads as 0 at every cycle, a write to it is discarded, and an instruction whose destination field
is 0 has no destination, so that no latch forwards for it and it causes no load-use stall. That a trace record shows
register 0 as 0 whatever entry 0 of the register file stores is deduced from 10 R23 and R46 (log 11). -/
def Obligations.RegisterZeroIsHardwired : Prop :=
  (∀ R : Regs, readReg R 0#5 = 0#32 ∧ (regView R)[0] = 0#32) ∧
  (∀ (R : Regs) (v : Word), writeReg R 0#5 v = R) ∧
  (∀ (rs rt : Reg) (off : Int),
    destOf (.add 0#5 rs rt) = none ∧ destOf (.sub 0#5 rs rt) = none ∧ destOf (.mul 0#5 rs rt) = none ∧
    destOf (.slt 0#5 rs rt) = none ∧ destOf (.addi 0#5 rs off) = none ∧ destOf (.lw 0#5 off rs) = none) ∧
  (∀ (F : InFlight), F.dest = none →
    (∀ r, Latch.forwards (.full F) r = none) ∧ ∀ l, loadUse l (.full F) = false)

/-- 20 R58, and R59, an inference the spec marks as its own: a word read after a word write gives the written value at
the written address, and the old value at every other valid address. -/
def Obligations.MemReadAfterMemWrite : Prop :=
  ∀ (m : Memory) (a b : Int) (v : Word), Memory.wf m → validAddr a = true → validAddr b = true →
    memRead (memWrite m a v) b = if b = a then v else memRead m b

/-- 10 R46, 20 R54: the footer lists exactly the non-zero words of the data memory, each with the byte range 4w to 4w +
3, and a memory in canonical form in rising order. -/
def Obligations.FooterListsTheNonZeroWords : Prop :=
  ∀ s : State,
    (∀ a b v, (a, b, v) ∈ s.footer ↔ ∃ w, a = 4 * w ∧ b = 4 * w + 3 ∧ v = Memory.word s.dmem w ∧ v ≠ 0#32) ∧
    (Memory.wf s.dmem → s.footer.Pairwise (fun x y => x.1 < y.1))

/-- 10 R24: a step changes no register but the destination of the instruction that is in MEM/WB, and that one only to
the instruction's result. -/
def Obligations.OnlyWritebackWritesRegisters : Prop :=
  ∀ (s t : State), step s = .next t → ∀ r, readReg t.regs r ≠ readReg s.regs r →
    ∃ F, s.memwb = .full F ∧ F.dest = some r ∧ readReg t.regs r = F.res

/-- 10 R41: a step changes no byte of memory unless a `sw` with a valid address is in EX/MEM, and then only bytes of
the word it stores to. -/
def Obligations.OnlyStoresInMemWriteMemory : Prop :=
  ∀ (s t : State), step s = .next t → ∀ a, Memory.byteAt t.dmem a ≠ Memory.byteAt s.dmem a →
    ∃ F, s.exmem = .full F ∧ isSw F.ins = true ∧ validAddr F.addr = true ∧ a / 4 = wordIndex F.addr

/-- 10 R42, R43, 20 R63: no step and no instruction changes the instruction store or the label table. -/
def Obligations.ProgramIsReadOnly : Prop :=
  (∀ s t : State, step s = .next t → t.program = s.program) ∧
  (∀ (i : Instr) (s t : State), exec i s = .next t → t.program = s.program)

/-- 10 R27: in a cycle the PC becomes the target when EX redirects, PC + 1 when IF fetches, and otherwise keeps its
value: during a stall, past the end, in an aborting cycle, and where no cycle is taken. -/
def Obligations.PcTakesOneOfThreeValues : Prop :=
  ∀ s t : State, step s = .next t →
    (s.clocked → t.status = .running →
      t.pc = (match s.redirectNow with
        | some n => n
        | none => if s.stallNow = true then s.pc else if s.pc < s.program.len then s.pc + 1 else s.pc)) ∧
    (s.clocked → t.status ≠ .running → t.pc = s.pc) ∧
    (¬ s.clocked → t.pc = s.pc)

/-! ### The stages of a cycle -/

/-- 40 R103: in every cycle, aborting or not, WB writes the result of the instruction in MEM/WB to its destination and
retires it; with a bubble nothing is written and nothing retires. -/
def Obligations.WritebackAlwaysCommits : Prop :=
  ∀ (f : Option Slot) (s : State),
    (s.memwb = .bubble → (cycle f s).regs = s.regs ∧ (cycle f s).retired = s.retired) ∧
    (∀ F, s.memwb = .full F →
      (∀ r, F.dest = some r → (cycle f s).regs = writeReg s.regs r F.res) ∧
      (F.dest = none → (cycle f s).regs = s.regs) ∧
      (cycle f s).retired = s.retired.bump F.idx)

/-- 40 R114: with no redirect and no stall, a fetch of a slot `Ok i` loads IF/ID with it and raises the PC by 1. -/
def Obligations.FetchLoadsIfid : Prop :=
  ∀ (s : State) (x : ExOut) (i : Instr), s.exNow = some x → s.redirectNow = none → s.stallNow = false →
    s.slotAtPc = some (.ok i) →
    (cycle s.slotAtPc s).ifid = .full { idx := s.pc, ins := i } ∧ (cycle s.slotAtPc s).pc = s.pc + 1

/-- 40 R115, 60 R221, R222: a `Bad` slot aborts the cycle with the slot's kind and the PC when IF reads it; under a
redirect or a stall, or when an older stage raises, it is not read and changes nothing. -/
def Obligations.BadSlotRaisesOnlyWhenRead : Prop :=
  ∀ (s : State) (k : BadKind),
    (∀ x, s.exNow = some x → s.redirectNow = none → s.stallNow = false →
      (cycle (some (.bad k)) s).status = (badErr k).status ∧
      (cycle (some (.bad k)) s).err = some ⟨badErr k, s.pc⟩) ∧
    ((s.exNow = none ∨ s.redirectNow ≠ none ∨ s.stallNow = true) →
      cycle (some (.bad k)) s = cycle none s)

/-- 40 R116: "If `redirect = None`, `stall = false` and `PC ≥ len`, IF fetches nothing". -/
def Obligations.PastTheEndFetchesNothing : Prop :=
  ∀ (s : State) (x : ExOut), s.exNow = some x → s.redirectNow = none → s.stallNow = false →
    s.program.len ≤ s.pc →
    (cycle s.slotAtPc s).ifid = .bubble ∧ (cycle s.slotAtPc s).pc = s.pc

/-- 40 R117, 42 R186: EX redirects exactly when it executes a `beq` with equal operands, a `bne` with operands that
differ, or a `j`, and then to the index its target resolves to. -/
def Obligations.RedirectExactlyWhenTaken : Prop :=
  ∀ (s : State) (x : ExOut) (n : Nat), s.exNow = some x →
    (s.redirectNow = some n ↔
      ∃ F, s.idex = .full F ∧
        ((∃ rs rt t, F.ins = .beq rs rt t ∧ F.a = F.b ∧ resolveTarget t s.program = some n) ∨
         (∃ rs rt t, F.ins = .bne rs rt t ∧ F.a ≠ F.b ∧ resolveTarget t s.program = some n) ∨
         (∃ t, F.ins = .j t ∧ resolveTarget t s.program = some n)))

/-- 40 R106, R117, R118: on a redirect to `n` the instruction in IF/ID is discarded, ID puts out a bubble, the fetch is
cancelled whatever the store answers, the PC becomes `n`, and the branch itself moves on to EX/MEM. -/
def Obligations.RedirectFlushes : Prop :=
  ∀ (f : Option Slot) (s : State) (n : Nat), s.redirectNow = some n →
    (cycle f s).ifid = .bubble ∧ (cycle f s).idex = .bubble ∧ (cycle f s).pc = n ∧
    (cycle f s).status = s.status ∧ cycle f s = cycle none s ∧
    ∃ F G, s.idex = .full F ∧ (cycle f s).exmem = .full G ∧ G.idx = F.idx ∧ G.ins = F.ins

/-- 40 R108: the hazard unit stalls exactly when EX holds a `lw` whose destination IF/ID reads; there is no redirect
then. -/
def Obligations.StallExactlyOnLoadUse : Prop :=
  ∀ (s : State) (x : ExOut), s.exNow = some x →
    (s.stallNow = true → s.redirectNow = none) ∧
    (s.stallNow = true ↔
      ∃ F G r, s.ifid = .full F ∧ s.idex = .full G ∧ isLw G.ins = true ∧ G.dest = some r ∧ r ∈ srcsOf F.ins)

/-- 40 R113, R109 (that the next cycle does not stall again is the spec's inference): on a stall ID puts out a bubble,
IF/ID and the PC are held, the instruction store is not read, the `lw` moves on to EX/MEM, and the next cycle does not
stall again. -/
def Obligations.StallHoldsForOneCycle : Prop :=
  ∀ (f : Option Slot) (s : State), s.stallNow = true →
    (cycle f s).idex = .bubble ∧ (cycle f s).ifid = s.ifid ∧ (cycle f s).pc = s.pc ∧
    cycle f s = cycle none s ∧ (cycle f s).exmem = s.idex ∧ (cycle f s).status = s.status ∧
    (cycle f s).stallNow = false

/-- 40 R119, an inference the spec marks as its own, from R108 and R117: a redirect and a load-use dependency never
arise in the same cycle. -/
def Obligations.RedirectAndLoadUseExclude : Prop :=
  ∀ (s : State) (x : ExOut), s.exNow = some x → x.redirect ≠ none → loadUse s.ifid x.latch = false

/-- 40 R110: FWD_EX is selected before FWD_MEM, and FWD_MEM before the register file as WB leaves it; register 0 is
always 0. -/
def Obligations.ForwardingPriority : Prop :=
  ∀ (r : Reg) (x m : Latch) (R : Regs),
    fwd 0#5 x m R = 0#32 ∧
    (r ≠ 0#5 →
      (∀ G, x = .full G → G.dest = some r → fwd r x m R = G.res) ∧
      ((∀ G, x = .full G → G.dest ≠ some r) →
        (∀ H, m = .full H → H.dest = some r → fwd r x m R = H.res) ∧
        ((∀ H, m = .full H → H.dest ≠ some r) → fwd r x m R = readReg R r)))

/-- 40 R111, R127, inferences the spec marks as its own: what the forwarding multiplexer delivers for a register is the
value the register holds once every older instruction has completed, unless EX holds a `lw` to it (then the hazard unit
stalls). That the older instructions complete by `drain`, with nothing fetched behind them, is the model's choice
(log 5). -/
def Obligations.ForwardedValueIsSequential : Prop :=
  ∀ (s : State) (r : Reg) (m : MemOut) (x : ExOut), s.status = .running →
    memStage s.exmem s.dmem = .ok m → exStage s.idex s.program = .ok x →
    (∀ G, s.idex = .full G → isLw G.ins = true → G.dest ≠ some r) →
    (drain { s with ifid := .bubble }).status = .running →
    fwd r x.latch m.latch (wbStage s.memwb s.regs s.retired).regs =
      readReg (drain { s with ifid := .bubble }).regs r

/-- 40 R125, 10 R46: a cycle that does not abort emits one record, the registers as they are after the cycle and the
store of the `sw` in MEM if there is one; a cycle that aborts emits none. -/
def Obligations.OneTraceRecordPerCompletedCycle : Prop :=
  ∀ (f : Option Slot) (s : State), s.status = .running →
    ((cycle f s).status = .running →
      (cycle f s).trace = ⟨regView (cycle f s).regs, s.exmem.storeEvent⟩ :: s.trace) ∧
    ((cycle f s).status ≠ .running → (cycle f s).trace = s.trace)

/-- 10 R32: `cycles` is 0 at reset and rises by 1 in every cycle the core takes, including one that aborts, and in no
other step. -/
def Obligations.CyclesCountEveryCycle : Prop :=
  State.reset.cycles = 0 ∧
  ∀ s t : State, step s = .next t → t.cycles = if s.clocked then s.cycles + 1 else s.cycles

/-! ### Aborts and the end of a run -/

/-- 40 R124, 60 R230: an aborting cycle leaves the latches, the PC, the program and the trace as they were, counts
itself, records an error of its status, and keeps MEM's store unless MEM itself raised. -/
def Obligations.AbortKeepsLatchesAndPc : Prop :=
  ∀ (f : Option Slot) (s : State), s.status = .running → (cycle f s).status ≠ .running →
    (cycle f s).ifid = s.ifid ∧ (cycle f s).idex = s.idex ∧ (cycle f s).exmem = s.exmem ∧
    (cycle f s).memwb = s.memwb ∧ (cycle f s).pc = s.pc ∧ (cycle f s).program = s.program ∧
    (cycle f s).trace = s.trace ∧ (cycle f s).cycles = s.cycles + 1 ∧
    (∃ e, (cycle f s).err = some e ∧ (cycle f s).status = e.kind.status) ∧
    ((cycle f s).status = .invalidAddress → (cycle f s).dmem = s.dmem) ∧
    ((cycle f s).status ≠ .invalidAddress → (cycle f s).dmem = s.exmem.storeTo s.dmem)

/-- 60 R228, an inference the spec marks as its own, from 40 R124: of the errors of one cycle the first in stage order
is reported: MEM's InvalidAddress, whatever EX and IF hold; then EX's InvalidLabel, whatever IF reads. -/
def Obligations.OldestErrorIsReported : Prop :=
  ∀ (f : Option Slot) (s : State),
    (∀ F, s.exmem = .full F → (isLw F.ins = true ∨ isSw F.ins = true) → validAddr F.addr = false →
      (cycle f s).status = .invalidAddress ∧ (cycle f s).err = some ⟨.invalidAddress, F.idx⟩) ∧
    (∀ G t, (∀ F, s.exmem = .full F → (isLw F.ins = true ∨ isSw F.ins = true) → validAddr F.addr = true) →
      s.idex = .full G → transferTarget G.ins = some t → resolveTarget t s.program = none →
      (cycle f s).status = .invalidLabel ∧ (cycle f s).err = some ⟨.invalidLabel, G.idx⟩)

/-- 10 R30: the status is one of seven values, Running at reset, and every other value is final: once the status has
left Running, no step and no instruction changes anything (60 R232). That `step` and `exec` answer a terminated state
unchanged is deduced from 10 R30 (log 6), and `exec` as a passage is the model's choice (log 5). -/
def Obligations.TerminatedCoreStays : Prop :=
  State.reset.status = .running ∧
  (∀ st : Status, st = .running ∨ st = .success ∨ st = .invalidRegister ∨ st = .invalidLabel ∨ st = .invalidAddress ∨
    st = .syntaxError ∨ st = .memoryLimitExceeded) ∧
  ∀ s : State, s.status ≠ .running → step s = .next s ∧ (∀ i, exec i s = .next s) ∧ ∀ k, turns k s = s

/-- 60 R226, 40 R122, R123: a drained core ends in Success with no further cycle and nothing else changes, so `err`
stays as it is; an empty program ends in Success with `cycles = 0` and no error. -/
def Obligations.DrainedCoreSucceeds : Prop :=
  (∀ s : State, s.status = .running → ¬ (s.cycles = 0 ∧ Config.imemMax < s.program.len) →
    s.program.len ≤ s.pc → s.ifid = .bubble → s.idex = .bubble → s.exmem = .bubble → s.memwb = .bubble →
    step s = .next { s with status := .success }) ∧
  (∀ P : Program, P.len = 0 →
    ∃ t, step (State.launch P) = .next t ∧ t.status = .success ∧ t.err = none ∧ t.cycles = 0)

/-- 60 R225, 30 R90: a program of more than 2^18 instructions is refused before any cycle, once and for all, with `err
= Some(MemoryLimitExceeded, len)`; a program of at most 2^18 never is. -/
def Obligations.OversizeProgramIsRefused : Prop :=
  ∀ (P : Program) (k : Nat),
    (262144 < P.len →
      turns (k + 1) (State.launch P) =
        { State.launch P with status := .memoryLimitExceeded, err := some ⟨.memoryLimitExceeded, P.len⟩ }) ∧
    (P.len ≤ 262144 → (turns k (State.launch P)).status ≠ .memoryLimitExceeded)

/-- 10 R44: the reset value of every piece of state, whatever the program is; that an oversize program then ends the
run at once; and that neither signal is asserted. `State.reset` is this with the empty program (the model's choice, log
2). -/
def Obligations.ResetValues : Prop :=
  State.reset = State.launch ⟨[], []⟩ ∧
  ∀ P : Program,
    (State.launch P).regs = Vector.replicate 32 0#32 ∧ (State.launch P).pc = 0 ∧
    (State.launch P).ifid = .bubble ∧ (State.launch P).idex = .bubble ∧ (State.launch P).exmem = .bubble ∧
    (State.launch P).memwb = .bubble ∧ (∀ w, Memory.word (State.launch P).dmem w = 0#32) ∧
    (State.launch P).status = .running ∧ (262144 < P.len → (turn (State.launch P)).status = .memoryLimitExceeded) ∧
    (State.launch P).err = none ∧ (State.launch P).cycles = 0 ∧ (∀ k, Counts.at (State.launch P).retired k = 0) ∧
    (State.launch P).stallNow = false ∧ (State.launch P).redirectNow = none

/-! ### Invariants -/

/-- 40 R128, an inference the spec marks as its own: a step keeps the structural invariants: 0 ≤ PC ≤ len, a full IF/ID
stands just before the PC, and every instruction in flight is the one the program holds at its index. -/
def Obligations.StepKeepsPipelineInvariant : Prop :=
  ∀ s t : State, s.pipelineInv → step s = .next t → t.pipelineInv

/-- 10 R34 to R38: a step keeps every latch in its listed form, every other field 0. -/
def Obligations.StepKeepsLatchForms : Prop :=
  ∀ s t : State, s.latchForms → step s = .next t → t.latchForms

/-- 10 R41, R33: a step keeps the data memory and the counters canonical and in range (their form is the model's, log 1
and log 9). -/
def Obligations.StepKeepsStorageCanonical : Prop :=
  ∀ s t : State, s.pipelineInv → s.storageInv → step s = .next t → t.storageInv

/-- 10 R30, R31, R32, 40 R125: a step keeps status and err in agreement, and one trace record for each cycle that did
not abort. -/
def Obligations.StepKeepsBookkeeping : Prop :=
  ∀ s t : State, s.statusInv → s.traceInv → step s = .next t → t.statusInv ∧ t.traceInv

/-- 10 R23, 40 R126: a step keeps the stored register 0 at 0. -/
def Obligations.StepKeepsRegisterZero : Prop :=
  ∀ s t : State, s.regZero → step s = .next t → t.regZero

/-- Every launched program starts with all the invariants (70 R250, 10 R44). -/
def Obligations.LaunchMeetsTheInvariants : Prop :=
  ∀ P : Program, (State.launch P).pipelineInv ∧ (State.launch P).latchForms ∧ (State.launch P).storageInv ∧
    (State.launch P).statusInv ∧ (State.launch P).traceInv ∧ (State.launch P).regZero

/-- 10 R45, R46: the outputs are emitted, not held: no step reads the trace. Two states that differ only in the trace
step to states that differ only in the trace, and emit the same records. -/
def Obligations.TraceIsNeverRead : Prop :=
  ∀ (s : State) (l : List TraceRecord),
    ∃ new, turn s = { turn s with trace := new ++ s.trace } ∧
      turn { s with trace := l } = { turn s with trace := new ++ l }

/-! ### The pipeline against one-at-a-time execution -/

/-- 40 R111, R127, inferences the spec marks as its own, and 70 R253: an instruction fetched behind older ones has the
effect it has after they have completed. With no control transfer in IF/ID or ID/EX (nothing is squashed), no stall in
the fetch cycle, and no error, the passage of `i` from `s` and its passage from the drained `s` end with the same
registers, memory, PC and counts. `exec` as a passage, and `drain`, are the model's choice (log 5). -/
def Obligations.PassageAgreesWithOneAtATime : Prop :=
  ∀ (s t : State) (i : Instr), s.status = .running → s.ifid.noTransfer = true → s.idex.noTransfer = true →
    s.stallNow = false → exec i s = .next t → t.status = .running →
    ∃ u, exec i (drain s) = .next u ∧ u.status = .running ∧
      u.regs = t.regs ∧ u.dmem = t.dmem ∧ u.pc = t.pc ∧ u.retired = t.retired

/-- 40 R127, 70 R258 (both derived in the spec; the passage is the model's choice, log 5): from a quiet state, `exec i`
has the architectural effect that one-at-a-time execution gives `i`, and the core is quiet again; an instruction with
an error there ends the run with that error. -/
def Obligations.ExecHasTheArchitecturalEffect : Prop :=
  ∀ (s : State) (i : Instr), s.quiet →
    (∀ a, archEffect s.program i s.arch = .ok a → ∃ t, exec i s = .next t ∧ t.quiet ∧ t.arch = a) ∧
    (∀ e, archEffect s.program i s.arch = .error e →
      ∃ t, exec i s = .next t ∧ t.status = e.kind.status ∧ t.err = some e ∧
        t.regs = s.regs ∧ t.dmem = s.dmem ∧ t.retired = s.retired)

/-- 40 R127, an inference the spec marks as its own: if a pipeline run of P ends in Success, then `seq(P)` also ends,
its pc at len and with no error, and the final registers, memory and counts of the two agree, `seq` counting how often
it executes each instruction. -/
def Obligations.SequentialEquivalence : Prop :=
  ∀ (P : Program) (k : Nat), (turns k (State.launch P)).status = .success →
    ∃ m a, seqRun P m Arch.start = .ok a ∧ a.pc = P.len ∧
      (turns k (State.launch P)).regs = a.regs ∧ (turns k (State.launch P)).dmem = a.dmem ∧
      (turns k (State.launch P)).retired = a.executed

/-- 70 R259, an inference the spec marks as its own: a run of a program of length at least 1 that ends in Success takes
`S + 4 + L + 2*T` cycles, S the retirements, L the stall cycles, T the redirects to an index that is not len; a run of
the empty program takes none. -/
def Obligations.CycleCountOfASuccessfulRun : Prop :=
  ∀ (P : Program) (k : Nat), (turns k (State.launch P)).status = .success →
    (1 ≤ P.len →
      (turns k (State.launch P)).cycles =
        Counts.total (turns k (State.launch P)).retired + 4 + countTurns State.stallNow k (State.launch P) +
          2 * countTurns State.redirectsInside k (State.launch P)) ∧
    (P.len = 0 → (turns k (State.launch P)).cycles = 0)
end

