-- ==== Sys2Proof/Laws/Memory.lean ====
section
/-! SUPPORT. The laws of the sparse tables, the registers, the data memory and the retirement counters: what a read gives
after a write, and that every write keeps the canonical form. -/

namespace Sys2Proof.Machine

/-! ### Sparse tables -/

/-- A read after a write: the written key gives the value, every other key what it gave before. -/
theorem cellGet_cellSet {α : Type} [DecidableEq α] (d : α) (m : List (Nat × α))
    (hm : m.Pairwise (fun x y => x.1 < y.1)) (a b : Nat) (v : α) :
    cellGet d (cellSet d m a v) b = if b = a then v else cellGet d m b := by
  induction m with
  | nil =>
    by_cases hv : v = d
    · simp [cellSet, cellGet, hv]
    · simp [cellSet, cellGet, hv]
  | cons c t ih =>
    obtain ⟨k, u⟩ := c
    have ht := (List.pairwise_cons.mp hm).2
    have hk : ∀ c ∈ t, k < c.1 := (List.pairwise_cons.mp hm).1
    have notIn : ∀ a, a ≤ k → cellGet d t a = d := by
      intro a ha
      clear ih hm
      induction t with
      | nil => rfl
      | cons c' t' ih' =>
        have h1 : k < c'.1 := hk c' (by simp)
        have h2 : a ≠ c'.1 := by omega
        simp only [cellGet, h2, if_false]
        exact ih' (List.pairwise_cons.mp ht).2 (fun c hc => hk c (by simp [hc]))
    unfold cellSet
    by_cases h1 : a < k
    · simp only [h1, if_true]
      by_cases hv : v = d
      · simp only [hv, if_true]
        by_cases hb : b = a
        · subst hb
          have : b ≠ k := by omega
          simp [cellGet, this, notIn b (by omega)]
        · simp [hb]
      · simp only [hv, if_false]
        by_cases hb : b = a
        · simp [cellGet, hb]
        · simp [cellGet, hb]
    · simp only [h1, if_false]
      by_cases h2 : a = k
      · subst h2
        simp only [if_true]
        by_cases hv : v = d
        · simp only [hv, if_true]
          by_cases hb : b = a
          · subst hb
            simp [notIn b (le_refl b)]
          · simp [cellGet, hb]
        · simp only [hv, if_false]
          by_cases hb : b = a
          · simp [cellGet, hb]
          · simp [cellGet, hb]
      · simp only [h2, if_false, cellGet]
        by_cases hb : b = k
        · subst hb
          have : b ≠ a := fun h => h2 h.symm
          simp [this]
        · simp only [hb, if_false]
          exact ih ht

/-- A write leaves the reading of every other key as it was, in any table. -/
theorem cellGet_cellSet_other {α : Type} [DecidableEq α] (d : α) (m : List (Nat × α)) (a b : Nat) (v : α) (h : b ≠ a) :
    cellGet d (cellSet d m a v) b = cellGet d m b := by
  induction m with
  | nil =>
    unfold cellSet
    split
    · rfl
    · simp [cellGet, h]
  | cons c t ih =>
    obtain ⟨k, u⟩ := c
    unfold cellSet
    split
    · split
      · rfl
      · simp [cellGet, h]
    · split
      · rename_i h2
        split
        · simp [cellGet, h2 ▸ h]
        · simp [cellGet, h2 ▸ h, h]
      · simp only [cellGet, ih]

/-- Every key of a table after a write is the written key or a key of the table before. -/
theorem mem_cellSet {α : Type} [DecidableEq α] (d : α) (m : List (Nat × α)) (a : Nat) (v : α) (c : Nat × α)
    (hc : c ∈ cellSet d m a v) : c = (a, v) ∧ v ≠ d ∨ c ∈ m := by
  induction m with
  | nil =>
    by_cases hv : v = d
    · simp [cellSet, hv] at hc
    · simp [cellSet, hv] at hc
      exact .inl ⟨hc, hv⟩
  | cons e t ih =>
    obtain ⟨k, u⟩ := e
    unfold cellSet at hc
    split at hc
    · split at hc
      · exact .inr hc
      · rcases List.mem_cons.mp hc with h | h
        · exact .inl ⟨h, ‹_›⟩
        · exact .inr h
    · split at hc
      · split at hc
        · exact .inr (List.mem_cons_of_mem _ hc)
        · rcases List.mem_cons.mp hc with h | h
          · exact .inl ⟨h, ‹_›⟩
          · exact .inr (List.mem_cons_of_mem _ h)
      · rcases List.mem_cons.mp hc with h | h
        · exact .inr (by simp [h])
        · rcases ih h with h | h
          · exact .inl h
          · exact .inr (List.mem_cons_of_mem _ h)

/-- A write keeps the canonical form. -/
theorem cellSet_wf {α : Type} [DecidableEq α] (d : α) (m : List (Nat × α)) (hm : cellsWf d m) (a : Nat) (v : α) :
    cellsWf d (cellSet d m a v) := by
  refine ⟨?_, fun c hc => ?_⟩
  · obtain ⟨hp, -⟩ := hm
    induction m with
    | nil =>
      by_cases hv : v = d
      · simp [cellSet, hv]
      · simp [cellSet, hv]
    | cons e t ih =>
      obtain ⟨k, u⟩ := e
      obtain ⟨hk, ht⟩ := List.pairwise_cons.mp hp
      unfold cellSet
      split
      · split
        · exact hp
        · refine List.pairwise_cons.mpr ⟨fun c hc => ?_, hp⟩
          rcases List.mem_cons.mp hc with h | h
          · simpa [h]
          · have := hk c h
            simp only
            omega
      · split
        · split
          · exact ht
          · rename_i h1 h2 h3
            refine List.pairwise_cons.mpr ⟨fun c hc => ?_, ht⟩
            have := hk c hc
            simp only
            omega
        · refine List.pairwise_cons.mpr ⟨fun c hc => ?_, ih ht⟩
          rcases mem_cellSet d t a v c hc with h | h
          · simp only [h.1]
            omega
          · exact hk c h
  · rcases mem_cellSet d m a v c hc with h | h
    · simpa [h.1] using h.2
    · exact hm.2 c h

/-! ### Registers -/

@[simp] theorem readReg_zero (R : Regs) : readReg R 0#5 = 0#32 := by simp [readReg]

@[simp] theorem writeReg_zero (R : Regs) (v : Word) : writeReg R 0#5 v = R := by simp [writeReg]

/-- A register read after a register write: register 0 stays 0 (10 R23). -/
theorem readReg_writeReg (R : Regs) (r q : Reg) (v : Word) :
    readReg (writeReg R r v) q = if q = r ∧ r ≠ 0#5 then v else readReg R q := by
  unfold readReg writeReg
  by_cases hr : r = 0#5
  · simp [hr]
  · by_cases hq : q = 0#5
    · have : ¬ 0#5 = r := fun h => hr h.symm
      simp [hq, this]
    · by_cases h : q = r
      · subst h
        simp [hr]
      · have : r.toNat ≠ q.toNat := fun e => h (BitVec.eq_of_toNat_eq e.symm)
        simp [hr, h, this]

/-! ### Data memory -/

/-- The empty memory is canonical. -/
theorem Memory.wf_nil : Memory.wf [] := ⟨List.Pairwise.nil, by simp⟩

/-- A byte read after a byte write. -/
theorem Memory.byteAt_setByte (m : Memory) (hm : Memory.wf m) (a b : Nat) (v : Byte) :
    Memory.byteAt (Memory.setByte m a v) b = if b = a then v else Memory.byteAt m b :=
  cellGet_cellSet _ m hm.1 a b v

/-- A byte write keeps the canonical form. -/
theorem Memory.setByte_wf (m : Memory) (hm : Memory.wf m) (a : Nat) (v : Byte) : Memory.wf (Memory.setByte m a v) :=
  cellSet_wf _ m hm a v

/-- A word write keeps the canonical form. -/
theorem Memory.setWord_wf (m : Memory) (hm : Memory.wf m) (w : Nat) (v : Word) : Memory.wf (Memory.setWord m w v) :=
  setByte_wf _ (setByte_wf _ (setByte_wf _ (setByte_wf _ hm _ _) _ _) _ _) _ _

/-- `MemWrite` keeps the canonical form. -/
theorem memWrite_wf (m : Memory) (hm : Memory.wf m) (addr : Int) (v : Word) : Memory.wf (memWrite m addr v) :=
  Memory.setWord_wf m hm _ v

/-- Every byte outside a written word is unchanged. -/
theorem Memory.byteAt_setWord_other (m : Memory) (w : Nat) (v : Word) (a : Nat) (ha : a / 4 ≠ w) :
    Memory.byteAt (Memory.setWord m w v) a = Memory.byteAt m a := by
  have h0 : a ≠ 4 * w := by omega
  have h1 : a ≠ 4 * w + 1 := by omega
  have h2 : a ≠ 4 * w + 2 := by omega
  have h3 : a ≠ 4 * w + 3 := by omega
  unfold Memory.setWord Memory.setByte Memory.byteAt
  rw [cellGet_cellSet_other _ _ _ _ _ h3, cellGet_cellSet_other _ _ _ _ _ h2, cellGet_cellSet_other _ _ _ _ _ h1,
    cellGet_cellSet_other _ _ _ _ _ h0]

/-- The keys of a memory after a word write are its old keys and the bytes of the word. -/
theorem Memory.mem_setWord (m : Memory) (w : Nat) (v : Word) (c : Host.Cell) (hc : c ∈ Memory.setWord m w v) :
    c ∈ m ∨ c.1 / 4 = w := by
  unfold Memory.setWord Memory.setByte at hc
  rcases mem_cellSet _ _ _ _ _ hc with h | h
  · exact .inr (by simp only [h.1]; omega)
  rcases mem_cellSet _ _ _ _ _ h with h | h
  · exact .inr (by simp only [h.1]; omega)
  rcases mem_cellSet _ _ _ _ _ h with h | h
  · exact .inr (by simp only [h.1]; omega)
  rcases mem_cellSet _ _ _ _ _ h with h | h
  · exact .inr (by simp only [h.1]; omega)
  · exact .inl h

/-! ### Retirement counters -/

/-- The empty counters are canonical. -/
theorem Counts.wf_nil : Counts.wf [] := ⟨List.Pairwise.nil, by simp⟩

/-- Retiring one instruction raises its own count by 1 and no other. -/
theorem Counts.at_bump (c : Counts) (hc : Counts.wf c) (k j : Nat) :
    Counts.at (Counts.bump c k) j = Counts.at c j + if j = k then 1 else 0 := by
  unfold Counts.bump Counts.at
  rw [cellGet_cellSet _ c hc.1]
  by_cases h : j = k
  · simp [h]
  · simp [h]

/-- Retiring one instruction keeps the canonical form. -/
theorem Counts.bump_wf (c : Counts) (hc : Counts.wf c) (k : Nat) : Counts.wf (Counts.bump c k) :=
  cellSet_wf _ c hc _ _

end Sys2Proof.Machine
end

