-- ==== Sys2Proof/Laws/State.lean ====
section
/-! SUPPORT. One lemma per field per update of the state, each true by rfl, so that no proof unfolds a record update; and
what launching, resetting and the small enumerations give. -/

namespace Sys2Proof.Machine

/-! ### `State.abort` -/

@[simp] theorem State.abort_regs (s : State) (e : ErrRecord) : (s.abort e).regs = s.regs := rfl
@[simp] theorem State.abort_pc (s : State) (e : ErrRecord) : (s.abort e).pc = s.pc := rfl
@[simp] theorem State.abort_ifid (s : State) (e : ErrRecord) : (s.abort e).ifid = s.ifid := rfl
@[simp] theorem State.abort_idex (s : State) (e : ErrRecord) : (s.abort e).idex = s.idex := rfl
@[simp] theorem State.abort_exmem (s : State) (e : ErrRecord) : (s.abort e).exmem = s.exmem := rfl
@[simp] theorem State.abort_memwb (s : State) (e : ErrRecord) : (s.abort e).memwb = s.memwb := rfl
@[simp] theorem State.abort_dmem (s : State) (e : ErrRecord) : (s.abort e).dmem = s.dmem := rfl
@[simp] theorem State.abort_status (s : State) (e : ErrRecord) : (s.abort e).status = e.kind.status := rfl
@[simp] theorem State.abort_err (s : State) (e : ErrRecord) : (s.abort e).err = some e := rfl
@[simp] theorem State.abort_cycles (s : State) (e : ErrRecord) : (s.abort e).cycles = s.cycles := rfl
@[simp] theorem State.abort_retired (s : State) (e : ErrRecord) : (s.abort e).retired = s.retired := rfl
@[simp] theorem State.abort_program (s : State) (e : ErrRecord) : (s.abort e).program = s.program := rfl
@[simp] theorem State.abort_trace (s : State) (e : ErrRecord) : (s.abort e).trace = s.trace := rfl

/-- An error's status is final: never Running. -/
@[simp] theorem ErrKind.status_ne_running (k : ErrKind) : k.status ≠ .running := by cases k <;> simp [ErrKind.status]

/-- An error's status is never Success. -/
@[simp] theorem ErrKind.status_ne_success (k : ErrKind) : k.status ≠ .success := by cases k <;> simp [ErrKind.status]

/-! ### `State.succeed` -/

@[simp] theorem State.succeed_regs (s : State) : s.succeed.regs = s.regs := rfl
@[simp] theorem State.succeed_pc (s : State) : s.succeed.pc = s.pc := rfl
@[simp] theorem State.succeed_ifid (s : State) : s.succeed.ifid = s.ifid := rfl
@[simp] theorem State.succeed_idex (s : State) : s.succeed.idex = s.idex := rfl
@[simp] theorem State.succeed_exmem (s : State) : s.succeed.exmem = s.exmem := rfl
@[simp] theorem State.succeed_memwb (s : State) : s.succeed.memwb = s.memwb := rfl
@[simp] theorem State.succeed_dmem (s : State) : s.succeed.dmem = s.dmem := rfl
@[simp] theorem State.succeed_status (s : State) : s.succeed.status = .success := rfl
@[simp] theorem State.succeed_err (s : State) : s.succeed.err = s.err := rfl
@[simp] theorem State.succeed_cycles (s : State) : s.succeed.cycles = s.cycles := rfl
@[simp] theorem State.succeed_retired (s : State) : s.succeed.retired = s.retired := rfl
@[simp] theorem State.succeed_program (s : State) : s.succeed.program = s.program := rfl
@[simp] theorem State.succeed_trace (s : State) : s.succeed.trace = s.trace := rfl

/-! ### `State.launch` -/

@[simp] theorem State.launch_regs (P : Program) : (State.launch P).regs = Vector.replicate 32 0#32 := rfl
@[simp] theorem State.launch_pc (P : Program) : (State.launch P).pc = 0 := rfl
@[simp] theorem State.launch_ifid (P : Program) : (State.launch P).ifid = .bubble := rfl
@[simp] theorem State.launch_idex (P : Program) : (State.launch P).idex = .bubble := rfl
@[simp] theorem State.launch_exmem (P : Program) : (State.launch P).exmem = .bubble := rfl
@[simp] theorem State.launch_memwb (P : Program) : (State.launch P).memwb = .bubble := rfl
@[simp] theorem State.launch_dmem (P : Program) : (State.launch P).dmem = [] := rfl
@[simp] theorem State.launch_status (P : Program) : (State.launch P).status = .running := rfl
@[simp] theorem State.launch_err (P : Program) : (State.launch P).err = none := rfl
@[simp] theorem State.launch_cycles (P : Program) : (State.launch P).cycles = 0 := rfl
@[simp] theorem State.launch_retired (P : Program) : (State.launch P).retired = [] := rfl
@[simp] theorem State.launch_program (P : Program) : (State.launch P).program = P := rfl
@[simp] theorem State.launch_trace (P : Program) : (State.launch P).trace = [] := rfl

/-! ### `State.completed` -/

@[simp] theorem State.completed_regs (s : State) (R : Regs) (pc : Nat) (m : Memory) (e : Option StoreEvent) :
    (s.completed R pc m e).regs = R := rfl
@[simp] theorem State.completed_pc (s : State) (R : Regs) (pc : Nat) (m : Memory) (e : Option StoreEvent) :
    (s.completed R pc m e).pc = pc := rfl
@[simp] theorem State.completed_ifid (s : State) (R : Regs) (pc : Nat) (m : Memory) (e : Option StoreEvent) :
    (s.completed R pc m e).ifid = s.ifid := rfl
@[simp] theorem State.completed_idex (s : State) (R : Regs) (pc : Nat) (m : Memory) (e : Option StoreEvent) :
    (s.completed R pc m e).idex = s.idex := rfl
@[simp] theorem State.completed_exmem (s : State) (R : Regs) (pc : Nat) (m : Memory) (e : Option StoreEvent) :
    (s.completed R pc m e).exmem = s.exmem := rfl
@[simp] theorem State.completed_memwb (s : State) (R : Regs) (pc : Nat) (m : Memory) (e : Option StoreEvent) :
    (s.completed R pc m e).memwb = s.memwb := rfl
@[simp] theorem State.completed_dmem (s : State) (R : Regs) (pc : Nat) (m : Memory) (e : Option StoreEvent) :
    (s.completed R pc m e).dmem = m := rfl
@[simp] theorem State.completed_status (s : State) (R : Regs) (pc : Nat) (m : Memory) (e : Option StoreEvent) :
    (s.completed R pc m e).status = s.status := rfl
@[simp] theorem State.completed_err (s : State) (R : Regs) (pc : Nat) (m : Memory) (e : Option StoreEvent) :
    (s.completed R pc m e).err = s.err := rfl
@[simp] theorem State.completed_cycles (s : State) (R : Regs) (pc : Nat) (m : Memory) (e : Option StoreEvent) :
    (s.completed R pc m e).cycles = s.cycles + 5 := rfl
@[simp] theorem State.completed_retired (s : State) (R : Regs) (pc : Nat) (m : Memory) (e : Option StoreEvent) :
    (s.completed R pc m e).retired = s.retired.bump s.pc := rfl
@[simp] theorem State.completed_program (s : State) (R : Regs) (pc : Nat) (m : Memory) (e : Option StoreEvent) :
    (s.completed R pc m e).program = s.program := rfl

/-! ### `State.withFetchWord` -/

@[simp] theorem State.withFetchWord_regs (s : State) (n w : Nat) : (s.withFetchWord n w).regs = s.regs := rfl
@[simp] theorem State.withFetchWord_pc (s : State) (n w : Nat) : (s.withFetchWord n w).pc = s.pc := rfl
@[simp] theorem State.withFetchWord_ifid (s : State) (n w : Nat) : (s.withFetchWord n w).ifid = .bubble := rfl
@[simp] theorem State.withFetchWord_idex (s : State) (n w : Nat) : (s.withFetchWord n w).idex = .bubble := rfl
@[simp] theorem State.withFetchWord_exmem (s : State) (n w : Nat) : (s.withFetchWord n w).exmem = .bubble := rfl
@[simp] theorem State.withFetchWord_memwb (s : State) (n w : Nat) : (s.withFetchWord n w).memwb = .bubble := rfl
@[simp] theorem State.withFetchWord_dmem (s : State) (n w : Nat) : (s.withFetchWord n w).dmem = s.dmem := rfl
@[simp] theorem State.withFetchWord_status (s : State) (n w : Nat) : (s.withFetchWord n w).status = .running := rfl
@[simp] theorem State.withFetchWord_err (s : State) (n w : Nat) : (s.withFetchWord n w).err = s.err := rfl
@[simp] theorem State.withFetchWord_cycles (s : State) (n w : Nat) : (s.withFetchWord n w).cycles = s.cycles := rfl
@[simp] theorem State.withFetchWord_retired (s : State) (n w : Nat) : (s.withFetchWord n w).retired = s.retired := rfl
@[simp] theorem State.withFetchWord_trace (s : State) (n w : Nat) : (s.withFetchWord n w).trace = s.trace := rfl
@[simp] theorem State.withFetchWord_labels (s : State) (n w : Nat) :
    (s.withFetchWord n w).program.labels = s.program.labels := rfl

end Sys2Proof.Machine
end

