-- ==== Sys2Proof/Laws/Engine.lean ====
section
/-! SUPPORT. What each stage, a cycle and a drain can do, each said once: later proofs cite these lemmas and unfold no
stage. -/

namespace Sys2Proof.Machine

/-! ### Stages -/

@[simp] theorem wbStage_bubble (R : Regs) (c : Counts) : wbStage .bubble R c = ⟨R, c⟩ := rfl
@[simp] theorem memStage_bubble (m : Memory) : memStage .bubble m = .ok ⟨.bubble, m, none⟩ := rfl
@[simp] theorem exStage_bubble (P : Program) : exStage .bubble P = .ok ⟨.bubble, none⟩ := rfl
@[simp] theorem loadUse_bubble_left (l : Latch) : loadUse .bubble l = false := rfl
@[simp] theorem loadUse_bubble_right (l : Latch) : loadUse l .bubble = false := by cases l <;> rfl
@[simp] theorem idStage_redirect (n : Nat) (b : Bool) (l x m : Latch) (R : Regs) :
    idStage (some n) b l x m R = .bubble := rfl
@[simp] theorem idStage_empty (b : Bool) (x m : Latch) (R : Regs) : idStage none b .bubble x m R = .bubble := rfl
@[simp] theorem idStage_stall (l x m : Latch) (R : Regs) : idStage none true l x m R = .bubble := by cases l <;> rfl
@[simp] theorem idStage_decode (F : InFlight) (x m : Latch) (R : Regs) :
    idStage none false (.full F) x m R = idDecode F x m R := rfl
@[simp] theorem ifStage_redirect (f : Option Slot) (n : Nat) (b : Bool) (l : Latch) (pc : Nat) :
    ifStage f (some n) b l pc = .ok ⟨.bubble, n⟩ := rfl
@[simp] theorem ifStage_stall (f : Option Slot) (l : Latch) (pc : Nat) : ifStage f none true l pc = .ok ⟨l, pc⟩ := rfl
@[simp] theorem ifStage_fetch (i : Instr) (l : Latch) (pc : Nat) :
    ifStage (some (.ok i)) none false l pc = .ok ⟨.full { idx := pc, ins := i }, pc + 1⟩ := rfl
@[simp] theorem ifStage_bad (k : BadKind) (l : Latch) (pc : Nat) :
    ifStage (some (.bad k)) none false l pc = .error ⟨badErr k, pc⟩ := rfl
@[simp] theorem ifStage_nothing (l : Latch) (pc : Nat) : ifStage none none false l pc = .ok ⟨.bubble, pc⟩ := rfl

@[simp] theorem Latch.forwards_bubble (r : Reg) : Latch.forwards .bubble r = none := rfl
@[simp] theorem Latch.forwards_full (G : InFlight) (r : Reg) :
    Latch.forwards (.full G) r = if G.dest = some r then some G.res else none := rfl

/-- The forwarding multiplexer delivers 0 for register 0 (10 R23). -/
@[simp] theorem fwd_zero (x m : Latch) (R : Regs) : fwd 0#5 x m R = 0#32 := rfl

/-- With nothing in EX and MEM the multiplexer delivers the register file's value (40 R110). -/
@[simp] theorem fwd_file (r : Reg) (R : Regs) : fwd r .bubble .bubble R = readReg R r := by
  unfold fwd
  split
  · simp [*]
  · rfl

/-- Everything MEM can do when it does not raise: nothing for a bubble, a checked load, a checked store, or nothing. -/
theorem memStage_ok {l : Latch} {m : Memory} {o : MemOut} (h : memStage l m = .ok o) :
    (l = .bubble ∧ o = ⟨.bubble, m, none⟩) ∨
    (∃ F, l = .full F ∧ isLw F.ins = true ∧ validAddr F.addr = true ∧
      o = ⟨.full { F with res := memRead m F.addr, addr := 0 }, m, none⟩) ∨
    (∃ F, l = .full F ∧ isSw F.ins = true ∧ validAddr F.addr = true ∧
      o = ⟨.full { F with addr := 0, sdata := 0#32 }, memWrite m F.addr F.sdata, some ⟨wordIndex F.addr, F.sdata⟩⟩) ∨
    (∃ F, l = .full F ∧ isLw F.ins = false ∧ isSw F.ins = false ∧ o = ⟨.full F, m, none⟩) := by
  cases l with
  | bubble => exact .inl ⟨rfl, (Except.ok.inj h).symm⟩
  | full F =>
    obtain ⟨ix, ins, d, a, b, ad, sd, rs⟩ := F
    cases ins
    case lw =>
      simp only [memStage, memLw] at h
      split at h
      · rename_i hv
        exact .inr (.inl ⟨_, rfl, rfl, hv, (Except.ok.inj h).symm⟩)
      · cases h
    case sw =>
      simp only [memStage, memSw] at h
      split at h
      · rename_i hv
        exact .inr (.inr (.inl ⟨_, rfl, rfl, hv, (Except.ok.inj h).symm⟩))
      · cases h
    all_goals exact .inr (.inr (.inr ⟨_, rfl, rfl, rfl, (Except.ok.inj h).symm⟩))

/-- MEM raises only InvalidAddress, for a load or store whose address is not valid (60 R224). -/
theorem memStage_error {l : Latch} {m : Memory} {e : ErrRecord} (h : memStage l m = .error e) :
    ∃ F, l = .full F ∧ (isLw F.ins = true ∨ isSw F.ins = true) ∧ validAddr F.addr = false ∧
      e = ⟨.invalidAddress, F.idx⟩ := by
  cases l with
  | bubble => cases h
  | full F =>
    obtain ⟨ix, ins, d, a, b, ad, sd, rs⟩ := F
    cases ins
    case lw =>
      simp only [memStage, memLw] at h
      split at h
      · cases h
      · rename_i hv
        exact ⟨_, rfl, .inl rfl, by simpa using hv, (Except.error.inj h).symm⟩
    case sw =>
      simp only [memStage, memSw] at h
      split at h
      · cases h
      · rename_i hv
        exact ⟨_, rfl, .inr rfl, by simpa using hv, (Except.error.inj h).symm⟩
    all_goals cases h

/-- Everything EX can do when it does not raise: nothing for a bubble, a result, a pass, or a resolved transfer. -/
theorem exStage_ok {l : Latch} {P : Program} {o : ExOut} (h : exStage l P = .ok o) :
    (l = .bubble ∧ o = ⟨.bubble, none⟩) ∨
    (∃ F v, l = .full F ∧ isLw F.ins = false ∧ isSw F.ins = false ∧ transferTarget F.ins = none ∧
      o = ⟨.full { F with a := 0#32, b := 0#32, res := v }, none⟩) ∨
    (∃ F, l = .full F ∧ (isLw F.ins = true ∨ isSw F.ins = true) ∧ transferTarget F.ins = none ∧ o = ⟨.full F, none⟩) ∨
    (∃ F t n, ∃ b : Bool, l = .full F ∧ isLw F.ins = false ∧ isSw F.ins = false ∧ transferTarget F.ins = some t ∧
      resolveTarget t P = some n ∧
      o = ⟨.full { F with a := 0#32, b := 0#32 }, if b then some n else none⟩) := by
  cases l with
  | bubble => exact .inl ⟨rfl, (Except.ok.inj h).symm⟩
  | full F =>
    obtain ⟨ix, ins, d, a, b, ad, sd, rs⟩ := F
    cases ins
    case lw => exact .inr (.inr (.inl ⟨_, rfl, .inl rfl, rfl, (Except.ok.inj h).symm⟩))
    case sw => exact .inr (.inr (.inl ⟨_, rfl, .inr rfl, rfl, (Except.ok.inj h).symm⟩))
    case beq =>
      simp only [exStage, exTransfer] at h
      split at h
      · cases h
      · rename_i hn
        exact .inr (.inr (.inr ⟨_, _, _, _, rfl, rfl, rfl, rfl, hn, (Except.ok.inj h).symm⟩))
    case bne =>
      simp only [exStage, exTransfer] at h
      split at h
      · cases h
      · rename_i hn
        exact .inr (.inr (.inr ⟨_, _, _, _, rfl, rfl, rfl, rfl, hn, (Except.ok.inj h).symm⟩))
    case j =>
      simp only [exStage, exTransfer] at h
      split at h
      · cases h
      · rename_i hn
        exact .inr (.inr (.inr ⟨_, _, _, _, rfl, rfl, rfl, rfl, hn, (Except.ok.inj h).symm⟩))
    all_goals exact .inr (.inl ⟨_, _, rfl, rfl, rfl, rfl, (Except.ok.inj h).symm⟩)

/-- EX raises only InvalidLabel, for a control transfer whose target does not resolve (60 R223). -/
theorem exStage_error {l : Latch} {P : Program} {e : ErrRecord} (h : exStage l P = .error e) :
    ∃ F t, l = .full F ∧ transferTarget F.ins = some t ∧ resolveTarget t P = none ∧ e = ⟨.invalidLabel, F.idx⟩ := by
  cases l with
  | bubble => cases h
  | full F =>
    obtain ⟨ix, ins, d, a, b, ad, sd, rs⟩ := F
    cases ins
    case beq =>
      simp only [exStage, exTransfer] at h
      split at h
      · rename_i hn
        exact ⟨_, _, rfl, rfl, hn, (Except.error.inj h).symm⟩
      · cases h
    case bne =>
      simp only [exStage, exTransfer] at h
      split at h
      · rename_i hn
        exact ⟨_, _, rfl, rfl, hn, (Except.error.inj h).symm⟩
      · cases h
    case j =>
      simp only [exStage, exTransfer] at h
      split at h
      · rename_i hn
        exact ⟨_, _, rfl, rfl, hn, (Except.error.inj h).symm⟩
      · cases h
    all_goals cases h

/-- IF raises only for a `Bad` slot that it reads (60 R221, R222). -/
theorem ifStage_error {f : Option Slot} {r : Option Nat} {b : Bool} {l : Latch} {pc : Nat} {e : ErrRecord}
    (h : ifStage f r b l pc = .error e) : r = none ∧ b = false ∧ ∃ k, f = some (.bad k) ∧ e = ⟨badErr k, pc⟩ := by
  unfold ifStage at h
  split at h
  · cases h
  · split at h
    · cases h
    · rename_i hb
      split at h
      · cases h
      · exact ⟨rfl, by simpa using hb, _, rfl, (Except.error.inj h).symm⟩
      · cases h

/-- Everything IF can do when it does not raise: redirect, hold, fetch, or nothing (40 R119). -/
theorem ifStage_ok {f : Option Slot} {r : Option Nat} {b : Bool} {l : Latch} {pc : Nat} {g : IfOut}
    (h : ifStage f r b l pc = .ok g) :
    (∃ n, r = some n ∧ g = ⟨.bubble, n⟩) ∨ (r = none ∧ b = true ∧ g = ⟨l, pc⟩) ∨
    (r = none ∧ b = false ∧ ∃ i, f = some (.ok i) ∧ g = ⟨.full { idx := pc, ins := i }, pc + 1⟩) ∨
    (r = none ∧ b = false ∧ f = none ∧ g = ⟨.bubble, pc⟩) := by
  cases r with
  | some n => exact .inl ⟨n, rfl, (Except.ok.inj h).symm⟩
  | none =>
    cases b with
    | true => exact .inr (.inl ⟨rfl, rfl, (Except.ok.inj h).symm⟩)
    | false =>
      cases f with
      | none => exact .inr (.inr (.inr ⟨rfl, rfl, rfl, (Except.ok.inj h).symm⟩))
      | some sl =>
        cases sl with
        | ok i => exact .inr (.inr (.inl ⟨rfl, rfl, i, rfl, (Except.ok.inj h).symm⟩))
        | bad k => cases h

/-- ID loads operands and changes nothing that came with the instruction. -/
@[simp] theorem loadOperands_keeps (v : Reg → Word) (F : InFlight) :
    (loadOperands v F).idx = F.idx ∧ (loadOperands v F).ins = F.ins ∧ (loadOperands v F).dest = F.dest ∧
      (loadOperands v F).res = F.res := by
  obtain ⟨ix, ins, d, a, b, ad, sd, rs⟩ := F
  cases ins <;> exact ⟨rfl, rfl, rfl, rfl⟩

/-- ID fills ID/EX only with what it decodes from a full IF/ID, with no redirect and no stall. -/
theorem idStage_full {r : Option Nat} {b : Bool} {l x m : Latch} {R : Regs} {F : InFlight}
    (h : idStage r b l x m R = .full F) :
    r = none ∧ b = false ∧ ∃ G, l = .full G ∧
      F = loadOperands (fun q => fwd q x m R) { idx := G.idx, ins := G.ins, dest := destOf G.ins } := by
  cases r with
  | some n => cases h
  | none =>
    cases l with
    | bubble => cases h
    | full G =>
      cases b with
      | true => cases h
      | false => exact ⟨rfl, rfl, G, rfl, (Latch.full.inj h).symm⟩

/-- A resolved target lies in 0..len (42 R181). -/
theorem resolveTarget_le {t : Target} {P : Program} {n : Nat} (h : resolveTarget t P = some n) : n ≤ P.len := by
  unfold resolveTarget at h
  split at h
  · split at h
    · have := Option.some.inj h
      omega
    · cases h
  · cases h

/-! ### A cycle -/

/-- The state after WB: where an abort in MEM stops (40 R124). -/
def State.afterWb (s : State) : State :=
  { s with
    regs := (wbStage s.memwb s.regs s.retired).regs
    retired := (wbStage s.memwb s.regs s.retired).retired
    cycles := s.cycles + 1 }

/-- The state after WB and MEM: where an abort in EX or IF stops (40 R124). -/
def State.afterMem (s : State) (m : MemOut) : State := { s.afterWb with dmem := m.dmem }

/-- The stall signal of a cycle, given what EX gives (40 R108). -/
def State.stallWith (s : State) (x : ExOut) : Bool := x.redirect.isNone && loadUse s.ifid x.latch

/-- The state a cycle that does not abort loads (40 R120). -/
def State.committed (s : State) (m : MemOut) (x : ExOut) (f : IfOut) : State :=
  { s.afterWb with
    dmem := m.dmem
    memwb := m.latch
    exmem := x.latch
    idex := idStage x.redirect (s.stallWith x) s.ifid x.latch m.latch s.afterWb.regs
    ifid := f.ifid
    pc := f.pc
    trace := ⟨regView s.afterWb.regs, m.store⟩ :: s.trace }

theorem cycle_memError {f : Option Slot} {s : State} {e : ErrRecord} (h : memStage s.exmem s.dmem = .error e) :
    cycle f s = s.afterWb.abort e := by
  simp only [cycle, h]
  rfl

theorem cycle_exError {f : Option Slot} {s : State} {m : MemOut} {e : ErrRecord}
    (hm : memStage s.exmem s.dmem = .ok m) (h : exStage s.idex s.program = .error e) :
    cycle f s = (s.afterMem m).abort e := by
  simp only [cycle, hm, h]
  rfl

theorem cycle_ifError {f : Option Slot} {s : State} {m : MemOut} {x : ExOut} {e : ErrRecord}
    (hm : memStage s.exmem s.dmem = .ok m) (hx : exStage s.idex s.program = .ok x)
    (h : ifStage f x.redirect (s.stallWith x) s.ifid s.pc = .error e) :
    cycle f s = (s.afterMem m).abort e := by
  unfold State.stallWith at h
  simp only [cycle, hm, hx, h]
  rfl

theorem cycle_committed {f : Option Slot} {s : State} {m : MemOut} {x : ExOut} {g : IfOut}
    (hm : memStage s.exmem s.dmem = .ok m) (hx : exStage s.idex s.program = .ok x)
    (h : ifStage f x.redirect (s.stallWith x) s.ifid s.pc = .ok g) :
    cycle f s = s.committed m x g := by
  unfold State.stallWith at h
  simp only [cycle, hm, hx, h]
  rfl

/-- Everything a cycle can do: abort in MEM, in EX or in IF, or commit (40 R124, R126). -/
theorem cycle_cases (f : Option Slot) (s : State) :
    (∃ e, memStage s.exmem s.dmem = .error e ∧ cycle f s = s.afterWb.abort e) ∨
    (∃ m e, memStage s.exmem s.dmem = .ok m ∧ exStage s.idex s.program = .error e ∧
      cycle f s = (s.afterMem m).abort e) ∨
    (∃ m x e, memStage s.exmem s.dmem = .ok m ∧ exStage s.idex s.program = .ok x ∧
      ifStage f x.redirect (s.stallWith x) s.ifid s.pc = .error e ∧
      cycle f s = (s.afterMem m).abort e) ∨
    (∃ m x g, memStage s.exmem s.dmem = .ok m ∧ exStage s.idex s.program = .ok x ∧
      ifStage f x.redirect (s.stallWith x) s.ifid s.pc = .ok g ∧ cycle f s = s.committed m x g) := by
  cases hm : memStage s.exmem s.dmem with
  | error e => exact .inl ⟨e, rfl, cycle_memError hm⟩
  | ok m =>
    cases hx : exStage s.idex s.program with
    | error e => exact .inr (.inl ⟨m, e, rfl, rfl, cycle_exError hm hx⟩)
    | ok x =>
      cases hi : ifStage f x.redirect (s.stallWith x) s.ifid s.pc with
      | error e => exact .inr (.inr (.inl ⟨m, x, e, rfl, rfl, hi, cycle_ifError hm hx hi⟩))
      | ok g => exact .inr (.inr (.inr ⟨m, x, g, rfl, rfl, hi, cycle_committed hm hx hi⟩))

@[simp] theorem State.afterWb_pc (s : State) : s.afterWb.pc = s.pc := rfl
@[simp] theorem State.afterWb_ifid (s : State) : s.afterWb.ifid = s.ifid := rfl
@[simp] theorem State.afterWb_idex (s : State) : s.afterWb.idex = s.idex := rfl
@[simp] theorem State.afterWb_exmem (s : State) : s.afterWb.exmem = s.exmem := rfl
@[simp] theorem State.afterWb_memwb (s : State) : s.afterWb.memwb = s.memwb := rfl
@[simp] theorem State.afterWb_dmem (s : State) : s.afterWb.dmem = s.dmem := rfl
@[simp] theorem State.afterWb_status (s : State) : s.afterWb.status = s.status := rfl
@[simp] theorem State.afterWb_err (s : State) : s.afterWb.err = s.err := rfl
@[simp] theorem State.afterWb_cycles (s : State) : s.afterWb.cycles = s.cycles + 1 := rfl
@[simp] theorem State.afterWb_program (s : State) : s.afterWb.program = s.program := rfl
@[simp] theorem State.afterWb_trace (s : State) : s.afterWb.trace = s.trace := rfl

/-- WB leaves the registers and the counters alone when MEM/WB holds a bubble (40 R103). -/
theorem State.afterWb_bubble {s : State} (h : s.memwb = .bubble) :
    s.afterWb.regs = s.regs ∧ s.afterWb.retired = s.retired := by
  simp [State.afterWb, h]

/-- WB writes the result, if there is a destination, and retires the instruction (40 R103). -/
theorem State.afterWb_full {s : State} {F : InFlight} (h : s.memwb = .full F) :
    s.afterWb.regs = (match F.dest with | some r => writeReg s.regs r F.res | none => s.regs) ∧
      s.afterWb.retired = s.retired.bump F.idx := by
  simp only [State.afterWb, h]
  exact ⟨rfl, rfl⟩

@[simp] theorem State.afterMem_regs (s : State) (m : MemOut) : (s.afterMem m).regs = s.afterWb.regs := rfl
@[simp] theorem State.afterMem_pc (s : State) (m : MemOut) : (s.afterMem m).pc = s.pc := rfl
@[simp] theorem State.afterMem_ifid (s : State) (m : MemOut) : (s.afterMem m).ifid = s.ifid := rfl
@[simp] theorem State.afterMem_idex (s : State) (m : MemOut) : (s.afterMem m).idex = s.idex := rfl
@[simp] theorem State.afterMem_exmem (s : State) (m : MemOut) : (s.afterMem m).exmem = s.exmem := rfl
@[simp] theorem State.afterMem_memwb (s : State) (m : MemOut) : (s.afterMem m).memwb = s.memwb := rfl
@[simp] theorem State.afterMem_dmem (s : State) (m : MemOut) : (s.afterMem m).dmem = m.dmem := rfl
@[simp] theorem State.afterMem_status (s : State) (m : MemOut) : (s.afterMem m).status = s.status := rfl
@[simp] theorem State.afterMem_err (s : State) (m : MemOut) : (s.afterMem m).err = s.err := rfl
@[simp] theorem State.afterMem_cycles (s : State) (m : MemOut) : (s.afterMem m).cycles = s.cycles + 1 := rfl
@[simp] theorem State.afterMem_retired (s : State) (m : MemOut) : (s.afterMem m).retired = s.afterWb.retired := rfl
@[simp] theorem State.afterMem_program (s : State) (m : MemOut) : (s.afterMem m).program = s.program := rfl
@[simp] theorem State.afterMem_trace (s : State) (m : MemOut) : (s.afterMem m).trace = s.trace := rfl

@[simp] theorem State.committed_regs (s : State) (m : MemOut) (x : ExOut) (f : IfOut) :
    (s.committed m x f).regs = s.afterWb.regs := rfl
@[simp] theorem State.committed_pc (s : State) (m : MemOut) (x : ExOut) (f : IfOut) : (s.committed m x f).pc = f.pc := rfl
@[simp] theorem State.committed_ifid (s : State) (m : MemOut) (x : ExOut) (f : IfOut) :
    (s.committed m x f).ifid = f.ifid := rfl
@[simp] theorem State.committed_idex (s : State) (m : MemOut) (x : ExOut) (f : IfOut) :
    (s.committed m x f).idex = idStage x.redirect (s.stallWith x) s.ifid x.latch m.latch s.afterWb.regs := rfl
@[simp] theorem State.committed_exmem (s : State) (m : MemOut) (x : ExOut) (f : IfOut) :
    (s.committed m x f).exmem = x.latch := rfl
@[simp] theorem State.committed_memwb (s : State) (m : MemOut) (x : ExOut) (f : IfOut) :
    (s.committed m x f).memwb = m.latch := rfl
@[simp] theorem State.committed_dmem (s : State) (m : MemOut) (x : ExOut) (f : IfOut) :
    (s.committed m x f).dmem = m.dmem := rfl
@[simp] theorem State.committed_status (s : State) (m : MemOut) (x : ExOut) (f : IfOut) :
    (s.committed m x f).status = s.status := rfl
@[simp] theorem State.committed_err (s : State) (m : MemOut) (x : ExOut) (f : IfOut) :
    (s.committed m x f).err = s.err := rfl
@[simp] theorem State.committed_cycles (s : State) (m : MemOut) (x : ExOut) (f : IfOut) :
    (s.committed m x f).cycles = s.cycles + 1 := rfl
@[simp] theorem State.committed_retired (s : State) (m : MemOut) (x : ExOut) (f : IfOut) :
    (s.committed m x f).retired = s.afterWb.retired := rfl
@[simp] theorem State.committed_program (s : State) (m : MemOut) (x : ExOut) (f : IfOut) :
    (s.committed m x f).program = s.program := rfl
@[simp] theorem State.committed_trace (s : State) (m : MemOut) (x : ExOut) (f : IfOut) :
    (s.committed m x f).trace = ⟨regView s.afterWb.regs, m.store⟩ :: s.trace := rfl

/-! ### A drain -/

@[simp] theorem drainFor_zero (s : State) : drainFor 0 s = s := rfl

/-- A drain of a state that has ended, or holds nothing in flight, changes nothing. -/
theorem drainFor_done {s : State} (h : ¬ (s.status = .running ∧ ¬ s.latchesEmpty)) (n : Nat) : drainFor n s = s := by
  cases n with
  | zero => rfl
  | succ n => simp only [drainFor, h, if_false]

/-- A drain of a running state with something in flight takes a cycle. -/
theorem drainFor_cycle {s : State} (h : s.status = .running ∧ ¬ s.latchesEmpty) (n : Nat) :
    drainFor (n + 1) s = drainFor n (cycle none s) := by
  simp only [drainFor, h, not_false_eq_true, and_self, if_true]

/-- How many cycles, with nothing fetched, a state still needs to empty its latches. -/
def State.toDrain (s : State) : Nat :=
  if s.ifid ≠ .bubble then (if s.idex = .bubble then 4 else 5)
  else if s.idex ≠ .bubble then 3
  else if s.exmem ≠ .bubble then 2
  else if s.memwb ≠ .bubble then 1
  else 0

/-- What MEM puts into MEM/WB is a bubble exactly when EX/MEM was one. -/
theorem memStage_bubble_iff {l : Latch} {m : Memory} {o : MemOut} (h : memStage l m = .ok o) :
    o.latch = .bubble ↔ l = .bubble := by
  rcases memStage_ok h with ⟨rfl, rfl⟩ | ⟨F, rfl, -, -, rfl⟩ | ⟨F, rfl, -, -, rfl⟩ | ⟨F, rfl, -, -, rfl⟩ <;> simp

/-- What EX puts into EX/MEM is a bubble exactly when ID/EX was one. -/
theorem exStage_bubble_iff {l : Latch} {P : Program} {o : ExOut} (h : exStage l P = .ok o) :
    o.latch = .bubble ↔ l = .bubble := by
  rcases exStage_ok h with ⟨rfl, rfl⟩ | ⟨F, v, rfl, -, -, -, rfl⟩ | ⟨F, rfl, -, -, rfl⟩ | ⟨F, t, n, b, rfl, -, -, -, -, rfl⟩ <;>
    simp

/-- A cycle that fetches nothing and does not abort brings a state with something in flight nearer to empty latches. -/
theorem toDrain_cycle {s : State} (hr : (cycle none s).status = .running) (hl : ¬ s.latchesEmpty) :
    (cycle none s).toDrain < s.toDrain := by
  rcases cycle_cases none s with ⟨e, -, h⟩ | ⟨m, e, -, -, h⟩ | ⟨m, x, e, -, -, -, h⟩ | ⟨m, x, g, hm, hx, hi, h⟩
  · simp [h] at hr
  · simp [h] at hr
  · simp [h] at hr
  · have hmb := memStage_bubble_iff hm
    have hxb := exStage_bubble_iff hx
    simp only [h, State.toDrain, State.committed_ifid, State.committed_idex, State.committed_exmem,
      State.committed_memwb, hmb, hxb, ne_eq]
    cases hrd : x.redirect with
    | some n =>
      rw [hrd] at hi
      have hg : g = ⟨.bubble, n⟩ := (Except.ok.inj hi).symm
      have hxe : s.idex ≠ .bubble := by
        intro hb
        rw [hb] at hx
        have : x = ⟨.bubble, none⟩ := (Except.ok.inj hx).symm
        simp [this] at hrd
      subst hg
      simp [hxe]
      split <;> omega
    | none =>
      rw [hrd] at hi
      cases hst : s.stallWith x with
      | true =>
        rw [hst] at hi
        have hg : g = ⟨s.ifid, s.pc⟩ := (Except.ok.inj hi).symm
        have hne : s.ifid ≠ .bubble := by
          intro hb
          simp [State.stallWith, hb] at hst
        have hxe : s.idex ≠ .bubble := by
          intro hb
          have := hxb.mpr hb
          simp [State.stallWith, this] at hst
        subst hg
        simp [hne, hxe]
      | false =>
        rw [hst] at hi
        have hg : g = ⟨.bubble, s.pc⟩ := (Except.ok.inj hi).symm
        subst hg
        cases hif : s.ifid with
        | bubble =>
          have hl' : ¬ (s.idex = .bubble ∧ s.exmem = .bubble ∧ s.memwb = .bubble) := fun c => hl ⟨hif, c⟩
          by_cases h1 : s.idex = .bubble <;> by_cases h2 : s.exmem = .bubble <;> by_cases h3 : s.memwb = .bubble <;>
            simp_all
        | full F =>
          simp [idDecode]
          split <;> omega

/-- A drain long enough ends with empty latches or with a terminated core. -/
theorem drainFor_settles (n : Nat) (s : State) (hn : s.toDrain ≤ n) :
    (drainFor n s).latchesEmpty ∨ (drainFor n s).status ≠ .running := by
  induction n generalizing s with
  | zero =>
    left
    have h0 : s.toDrain = 0 := by omega
    simp only [State.toDrain] at h0
    simp only [drainFor_zero]
    by_cases h1 : s.ifid = .bubble <;> by_cases h2 : s.idex = .bubble <;> by_cases h3 : s.exmem = .bubble <;>
      by_cases h4 : s.memwb = .bubble <;> simp_all [State.latchesEmpty]
  | succ n ih =>
    by_cases h : s.status = .running ∧ ¬ s.latchesEmpty
    · rw [drainFor_cycle h]
      by_cases hr : (cycle none s).status = .running
      · have := toDrain_cycle hr h.2
        exact ih _ (by omega)
      · right
        rw [drainFor_done (by simp [hr])]
        exact hr
    · rw [drainFor_done h]
      by_cases hr : s.status = .running
      · left
        by_contra hl
        exact h ⟨hr, hl⟩
      · exact .inr hr

/-- Five cycles always settle what is in flight, a load-use stall included. -/
theorem drain_settles (s : State) : (drain s).latchesEmpty ∨ (drain s).status ≠ .running := by
  apply drainFor_settles
  simp only [State.toDrain]
  split
  · split <;> omega
  · split
    · omega
    · split
      · omega
      · split <;> omega

/-! ### Signals -/

/-- MEM and EX of the next cycle, where neither raises. -/
theorem exNow_eq_some {s : State} {x : ExOut} :
    s.exNow = some x ↔ ∃ m, memStage s.exmem s.dmem = .ok m ∧ exStage s.idex s.program = .ok x := by
  unfold State.exNow
  cases hm : memStage s.exmem s.dmem <;> cases hx : exStage s.idex s.program <;> simp

theorem redirectNow_eq {s : State} {x : ExOut} (h : s.exNow = some x) : s.redirectNow = x.redirect := by
  simp [State.redirectNow, h]

theorem stallNow_eq {s : State} {x : ExOut} (h : s.exNow = some x) : s.stallNow = s.stallWith x := by
  simp [State.stallNow, h, State.stallWith]

/-- The instruction store answers nothing exactly when the PC is past the end (10 R42). -/
theorem slotAtPc_eq_none (s : State) : s.slotAtPc = none ↔ s.program.len ≤ s.pc := by
  simp [State.slotAtPc, Program.len]

/-! ### Step and exec -/

@[simp] theorem step_eq (s : State) : step s = .next (turn s) := rfl

/-- `exec` is the passage of its instruction, for each of the ten. -/
theorem exec_eq (i : Instr) (s : State) : exec i s = .next (passage i s) := by cases i <;> rfl

/-- A running core's passage is one cycle that is offered the instruction, and a drain (log 5). -/
theorem passage_running {s : State} (h : s.status = .running) (i : Instr) :
    passage i s = drain (cycle (some (.ok i)) s) := by
  simp only [passage, h, if_true]

/-- Everything a step can do (40 R123). -/
theorem turn_cases (s : State) :
    (s.status ≠ .running ∧ turn s = s) ∨
    (s.status = .running ∧ (s.cycles = 0 ∧ Config.imemMax < s.program.len) ∧
      turn s = s.abort ⟨.memoryLimitExceeded, s.program.len⟩) ∨
    (s.status = .running ∧ ¬ (s.cycles = 0 ∧ Config.imemMax < s.program.len) ∧ s.drained ∧
      turn s = s.succeed) ∨
    (s.clocked ∧ turn s = cycle s.slotAtPc s) := by
  unfold turn
  by_cases h1 : s.status = .running
  · by_cases h2 : s.cycles = 0 ∧ Config.imemMax < s.program.len
    · exact .inr (.inl ⟨h1, h2, by rw [if_neg (by simp [h1]), if_pos h2]⟩)
    · by_cases h3 : s.drained
      · exact .inr (.inr (.inl ⟨h1, h2, h3, by rw [if_neg (by simp [h1]), if_neg h2, if_pos h3]⟩))
      · exact .inr (.inr (.inr ⟨⟨h1, h2, h3⟩, by rw [if_neg (by simp [h1]), if_neg h2, if_neg h3]⟩))
  · exact .inl ⟨h1, by rw [if_pos h1]⟩

end Sys2Proof.Machine
end

