-- ==== Sys2Proof/Laws/PerInstr.lean ====
section
/-! SUPPORT. Statements about every instruction as syntax, one lemma per constructor. -/

namespace Sys2Proof.Laws.Ports

open Sys2Proof.Machine

/-- The ports an instruction uses: at most two register reads in ID (10 R25), at most one register write in WB, and
never of register 0 (10 R23, R24). -/
def Statement (i : Instr) : Prop := (srcsOf i).length ≤ 2 ∧ destOf i ≠ some 0#5

/-- A normalised destination is never register 0. -/
theorem normDest_ne_zero (r : Reg) : normDest r ≠ some 0#5 := by
  unfold normDest
  split
  · simp
  · rename_i h
    simpa using h

theorem add (rd rs rt : Reg) : Statement (.add rd rs rt) := ⟨by simp [srcsOf], normDest_ne_zero rd⟩
theorem sub (rd rs rt : Reg) : Statement (.sub rd rs rt) := ⟨by simp [srcsOf], normDest_ne_zero rd⟩
theorem slt (rd rs rt : Reg) : Statement (.slt rd rs rt) := ⟨by simp [srcsOf], normDest_ne_zero rd⟩
theorem mul (rd rs rt : Reg) : Statement (.mul rd rs rt) := ⟨by simp [srcsOf], normDest_ne_zero rd⟩
theorem beq (rs rt : Reg) (t : Target) : Statement (.beq rs rt t) := ⟨by simp [srcsOf], by simp [destOf]⟩
theorem bne (rs rt : Reg) (t : Target) : Statement (.bne rs rt t) := ⟨by simp [srcsOf], by simp [destOf]⟩
theorem j (t : Target) : Statement (.j t) := ⟨by simp [srcsOf], by simp [destOf]⟩
theorem lw (rt : Reg) (off : Int) (base : Reg) : Statement (.lw rt off base) :=
  ⟨by simp [srcsOf], normDest_ne_zero rt⟩
theorem sw (rt : Reg) (off : Int) (base : Reg) : Statement (.sw rt off base) := ⟨by simp [srcsOf], by simp [destOf]⟩
theorem addi (rt rs : Reg) (imm : Int) : Statement (.addi rt rs imm) := ⟨by simp [srcsOf], normDest_ne_zero rt⟩

end Sys2Proof.Laws.Ports
end

