-- ==== Sys2Proof/Machine/Loader.lean ====
section
/-! DEFINITION. What a loader puts into the instruction store for a line that is already split into a mnemonic and
operands (30 R73, R87, R88; 10 R22), and into the label table for a list of label definitions (30 R89). The core never
runs this: text and tokens are outside the hardware (00 R5; log 15). -/

namespace Sys2Proof.Machine

/-- An operand of an assembly line (30 R86, R87). -/
inductive AsmOperand where
  | reg (name : String)
  | imm (n : Int)
  | mem (off : Int) (base : String)
  | label (name : String)
  deriving DecidableEq, Repr

/-- A slot of an instruction with registers to be named: a name that is no register makes it `Bad InvalidRegister`
(30 R73). -/
def slotOfRegs (build : List Reg → Option Instr) (names : List String) : Option Slot :=
  if names.all (fun n => (regOfName n).isSome) then (build (names.filterMap regOfName)).map .ok
  else some (.bad .invalidRegister)

/-- The slot of a line, in the operand order of 30 R87. Any other mnemonic is `Bad SyntaxError` (30 R88). `none` where
the operands have another shape, for which the spec gives no slot. Two points the spec leaves open are the model's
DESIGN CHOICE. An immediate or offset outside `Int32` (30 R71; 91 N15) goes into the `Ok` record as it stands, so the
record is outside `Instr.wf` (log 12). The label of `beq`, `bne` and `j` is always left symbolic, `Target.sym`, never
resolved to `Target.idx` (30 R72; 91 N18; log 15). -/
def slotOfLine (mnemonic : String) (ops : List AsmOperand) : Option Slot :=
  if mnemonic = "add" then
    match ops with
    | [.reg d, .reg s, .reg t] => slotOfRegs (fun | [rd, rs, rt] => some (.add rd rs rt) | _ => none) [d, s, t]
    | _ => none
  else if mnemonic = "sub" then
    match ops with
    | [.reg d, .reg s, .reg t] => slotOfRegs (fun | [rd, rs, rt] => some (.sub rd rs rt) | _ => none) [d, s, t]
    | _ => none
  else if mnemonic = "mul" then
    match ops with
    | [.reg d, .reg s, .reg t] => slotOfRegs (fun | [rd, rs, rt] => some (.mul rd rs rt) | _ => none) [d, s, t]
    | _ => none
  else if mnemonic = "slt" then
    match ops with
    | [.reg d, .reg s, .reg t] => slotOfRegs (fun | [rd, rs, rt] => some (.slt rd rs rt) | _ => none) [d, s, t]
    | _ => none
  else if mnemonic = "addi" then
    match ops with
    | [.reg t, .reg s, .imm n] => slotOfRegs (fun | [rt, rs] => some (.addi rt rs n) | _ => none) [t, s]
    | _ => none
  else if mnemonic = "lw" then
    match ops with
    | [.reg t, .mem off b] => slotOfRegs (fun | [rt, base] => some (.lw rt off base) | _ => none) [t, b]
    | _ => none
  else if mnemonic = "sw" then
    match ops with
    | [.reg t, .mem off b] => slotOfRegs (fun | [rt, base] => some (.sw rt off base) | _ => none) [t, b]
    | _ => none
  else if mnemonic = "beq" then
    match ops with
    | [.reg s, .reg t, .label l] => slotOfRegs (fun | [rs, rt] => some (.beq rs rt (.sym l)) | _ => none) [s, t]
    | _ => none
  else if mnemonic = "bne" then
    match ops with
    | [.reg s, .reg t, .label l] => slotOfRegs (fun | [rs, rt] => some (.bne rs rt (.sym l)) | _ => none) [s, t]
    | _ => none
  else if mnemonic = "j" then
    match ops with
    | [.label l] => some (.ok (.j (.sym l)))
    | _ => none
  else some (.bad .syntaxError)

/-- The label table of a list of definitions (30 R89): a name defined once maps to its index, a name defined twice or
more is `Dup`, and a name never defined is not in the table. -/
def labelTable (defs : List (String × Nat)) : List (String × Label) :=
  ((defs.map Prod.fst).dedup).map (fun name =>
    (name,
      match defs.filter (fun d => d.1 = name) with
      | [d] => .defined d.2
      | _ => .dup))

end Sys2Proof.Machine
end

