-- ==== Sys2Proof/Tests/Slice0.lean ====
section
/-! SUPPORT. Tests, each on fixed values: the checks of WellFormed refuse ill-formed terms, words of the binary form
decode, each instruction does what its rule's corner cases and examples say, and every statement's hypotheses are met. -/

namespace Sys2Proof.Tests

open Sys2Proof Sys2Proof.Machine

/-! ### Every check of WellFormed refuses an ill-formed term -/

theorem test_wf_addi_range : (Instr.addi 8 0 2147483648).wf = false ∧ (Instr.addi 8 0 (-2147483648)).wf = true := by decide
theorem test_wf_lw_range : (Instr.lw 8 (-2147483649) 0).wf = false ∧ (Instr.lw 8 2147483647 0).wf = true := by decide
theorem test_wf_sw_range : (Instr.sw 8 2147483648 0).wf = false ∧ (Instr.sw 8 (-2147483648) 0).wf = true := by decide

/-- A branch distance of 16 signed bits from the next index, at both ends; a symbolic target has no word (30 R81). -/
theorem test_encodable_branch :
    (Instr.beq 8 9 (.idx 32773)).encodable 5 = true ∧ (Instr.beq 8 9 (.idx 32774)).encodable 5 = false ∧
    (Instr.bne 8 9 (.idx (-32762))).encodable 5 = true ∧ (Instr.bne 8 9 (.idx (-32763))).encodable 5 = false ∧
    (Instr.beq 8 9 (.sym "L")).encodable 5 = false := by decide

theorem test_encodable_jump :
    (Instr.j (.idx 67108863)).encodable 0 = true ∧ (Instr.j (.idx 67108864)).encodable 0 = false ∧
    (Instr.j (.idx (-1))).encodable 0 = false ∧ (Instr.j (.sym "L")).encodable 0 = false := by decide

theorem test_encodable_imm16 :
    (Instr.addi 8 0 32767).encodable 0 = true ∧ (Instr.addi 8 0 32768).encodable 0 = false ∧
    (Instr.lw 8 (-32769) 0).encodable 0 = false ∧ (Instr.sw 8 32768 0).encodable 0 = false := by decide

theorem test_wf_slot : (Slot.ok (.addi 8 0 2147483648)).wf = false ∧ (Slot.bad .invalidRegister).wf = true := by decide
theorem test_wf_entry : (Entry.slot (.ok (.lw 8 2147483648 0))).wf = false ∧ (Entry.word 0#32).wf = true := by decide
theorem test_wf_label : (Label.defined 3).wf 2 = false ∧ (Label.defined 2).wf 2 = true ∧ Label.dup.wf 0 = true := by decide
theorem test_wf_program_slot : (Program.mk [.slot (.ok (.sw 8 2147483648 0))] []).wf = false := by decide
theorem test_wf_program_label : (Program.mk [] [("L", .defined 1)]).wf = false := by decide
theorem test_wf_program_labelTwice : (Program.mk [] [("L", .defined 0), ("L", .dup)]).wf = false := by decide
theorem test_wf_program_accepted :
    (Program.mk [.slot (.ok (.j (.sym "L"))), .word 0#32] [("L", .defined 2)]).wf = true := by decide

/-- 30 R90: one slot more than 2^18 does not fit. -/
theorem test_fits (P : Program) (h : P.len = 262145) : P.fits = false ∧ (Program.mk [] []).fits = true := by
  rw [Program.fits, h]
  decide

/-! ### Words of the binary form, written out from 30 R78 to R82 -/

/-- `000000 01000 01001 01010 00000 100000` (95 V-D). -/
theorem test_decode_add : decodeWord 0b00000001000010010101000000100000#32 0 = .ok (.add 10 8 9) := by decide
/-- `000000 01011 01100 01101 00000 100010`. -/
theorem test_decode_sub : decodeWord 0b00000001011011000110100000100010#32 0 = .ok (.sub 13 11 12) := by decide
/-- `000000 00001 00010 11111 00000 101010`. -/
theorem test_decode_slt : decodeWord 0b00000000001000101111100000101010#32 0 = .ok (.slt 31 1 2) := by decide
/-- `011100 01000 01001 01100 00000 000010` (95 V-D). -/
theorem test_decode_mul : decodeWord 0b01110001000010010110000000000010#32 0 = .ok (.mul 12 8 9) := by decide
/-- `000100 01000 01001 0000000000000010` at index 2: target 2 + 1 + 2. -/
theorem test_decode_beq : decodeWord 0b00010001000010010000000000000010#32 2 = .ok (.beq 8 9 (.idx 5)) := by decide
/-- `000101 01000 00000 1111111111111101` at index 4: target 4 + 1 - 3. -/
theorem test_decode_bne : decodeWord 0b00010101000000001111111111111101#32 4 = .ok (.bne 8 0 (.idx 2)) := by decide
/-- `000010 00000000000000000000001001`. -/
theorem test_decode_j : decodeWord 0b00001000000000000000000000001001#32 7 = .ok (.j (.idx 9)) := by decide
/-- `100011 01001 01000 1111111111111100`: base in 25..21, rt in 20..16. -/
theorem test_decode_lw : decodeWord 0b10001101001010001111111111111100#32 0 = .ok (.lw 8 (-4) 9) := by decide
/-- `101011 01001 01000 0111111111111100`. -/
theorem test_decode_sw : decodeWord 0b10101101001010000111111111111100#32 0 = .ok (.sw 8 32764 9) := by decide
/-- `001000 01000 01010 1111111111111111`: rs in 25..21, rt in 20..16. -/
theorem test_decode_addi : decodeWord 0b00100001000010101111111111111111#32 0 = .ok (.addi 10 8 (-1)) := by decide
/-- 30 R84: a nonzero shamt, an unlisted funct and an unlisted opcode are illegal; the zero word is no no-op. -/
theorem test_decode_illegal :
    decodeWord 0x01095060#32 0 = .bad .syntaxError ∧ decodeWord 0x01095021#32 0 = .bad .syntaxError ∧
    decodeWord 0x0C000000#32 0 = .bad .syntaxError ∧ decodeWord 0x00000000#32 0 = .bad .syntaxError ∧
    decodeWord 0xFFFFFFFF#32 0 = .bad .syntaxError := by decide
theorem test_decodeTableWord :
    decodeTableWord 32 0x71096002 = some (.mul 12 8 9) ∧ decodeTableWord 32 0x0C000000 = none := by decide
theorem test_encode_branch : encode (.bne 8 0 (.idx 2)) 4 = 0x1500FFFD#32 ∧ encode (.j (.idx 67108863)) 0 = 0x0BFFFFFF#32 := by
  decide

/-! ### The loader's slots and names -/

theorem test_regOfName : regOfName "$sp" = some 29 ∧ regOfName "$31" = some 31 ∧ regOfName "$s8" = some 30 ∧
    regOfName "$32" = none ∧ regOfName "$fp" = none := by decide
theorem test_slotOfLine :
    slotOfLine "lw" [.reg "$t0", .mem 4 "$sp"] = some (.ok (.lw 8 4 29)) ∧
    slotOfLine "add" [.reg "$t0", .reg "$t1", .reg "$q9"] = some (.bad .invalidRegister) ∧
    slotOfLine "nop" [] = some (.bad .syntaxError) := by decide
theorem test_labelTable :
    (labelTable [("L", 3), ("M", 0), ("L", 5)]).lookup "L" = some .dup ∧
    (labelTable [("L", 3), ("M", 0), ("L", 5)]).lookup "M" = some (.defined 0) ∧
    (labelTable [("L", 3), ("M", 0), ("L", 5)]).lookup "N" = none := by decide
theorem test_status_codes :
    Status.running.code = none ∧ Status.success.code = some 0 ∧ Status.memoryLimitExceeded.code = some 5 := by decide

/-! ### One instruction alone in the pipeline -/

/-- Four slots: a word of `add`, a record of `addi`, a bad slot and a jump to the end. -/
def prog : Program :=
  ⟨[.word 0x01095020#32, .slot (.ok (.addi 8 0 5)), .slot (.bad .syntaxError), .slot (.ok (.j (.sym "end")))],
   [("end", .defined 4), ("twice", .dup), ("top", .defined 0)]⟩

/-- `$t0 = x`, `$t1 = y`, the word 16 of memory holds 40, nothing is in flight. -/
def quietState (x y : Word) : State :=
  { State.launch prog with
    regs := writeReg (writeReg State.reset.regs 8 x) 9 y
    dmem := Memory.setWord [] 16 40#32 }

/-- Register `r` after `i` has passed, from `$t0 = x` and `$t1 = y`. -/
def regAfter (i : Instr) (x y : Word) (r : Reg) : Word := readReg (passage i (quietState x y)).regs r

/-- The status, the error and the PC after `i` has passed, from `$t0 = x` and `$t1 = y`. -/
def endAfter (i : Instr) (x y : Word) : Status × Option ErrRecord × Nat :=
  ((passage i (quietState x y)).status, (passage i (quietState x y)).err, (passage i (quietState x y)).pc)

/-- 41 R161: 0x7FFFFFFF + 1 wraps; rd = rs = rt doubles. -/
theorem test_add : regAfter (.add 10 8 9) 0x7FFFFFFF#32 1#32 10 = 0x80000000#32 ∧ regAfter (.add 8 8 8) 21#32 0#32 8 = 42#32 := by
  decide
/-- 10 R23: a destination of register 0 discards the result, and the instruction retires. -/
theorem test_add_zero : regAfter (.add 0 8 9) 1#32 2#32 0 = 0#32 ∧
    Counts.at (passage (.add 0 8 9) (quietState 1#32 2#32)).retired 0 = 1 := by decide
/-- 41 R162: 3 - 10 = -7, and 0x80000000 - 1 wraps. -/
theorem test_sub : regAfter (.sub 10 8 9) 3#32 10#32 10 = 0xFFFFFFF9#32 ∧
    regAfter (.sub 10 8 9) 0x80000000#32 1#32 10 = 0x7FFFFFFF#32 := by decide
/-- 41 R163: 0x10000 * 0x10000 keeps the low word, and 0x80000000 * -1 = 0x80000000. -/
theorem test_mul : regAfter (.mul 10 8 9) 0x10000#32 0x10000#32 10 = 0#32 ∧
    regAfter (.mul 10 8 9) 0x80000000#32 0xFFFFFFFF#32 10 = 0x80000000#32 := by decide
/-- 41 R164: the comparison is signed. -/
theorem test_slt : regAfter (.slt 10 8 9) 0x80000000#32 0x7FFFFFFF#32 10 = 1#32 ∧
    regAfter (.slt 10 8 9) 9#32 3#32 10 = 0#32 := by decide
/-- 41 R165: 0 + (-1) = 0xFFFFFFFF. -/
theorem test_addi : regAfter (.addi 8 0 (-1)) 7#32 0#32 8 = 0xFFFFFFFF#32 := by decide
/-- 43 R201: DMEM[16] = 40 at byte address 64; an address of 2^20 is not valid. -/
theorem test_lw : regAfter (.lw 10 (-4) 8) 68#32 0#32 10 = 40#32 ∧
    endAfter (.lw 10 0 8) 1048576#32 0#32 = (.invalidAddress, some ⟨.invalidAddress, 0⟩, 1) := by decide
/-- 43 R202: `sw $t0,0($t1)` with $t0 = -7 and $t1 = 400 sets DMEM[100] to -7 and says so. -/
theorem test_sw :
    Memory.word (passage (.sw 8 0 9) (quietState 0xFFFFFFF9#32 400#32)).dmem 100 = 0xFFFFFFF9#32 ∧
    (passage (.sw 8 0 9) (quietState 0xFFFFFFF9#32 400#32)).trace.map (·.store) =
      [none, some ⟨100, 0xFFFFFFF9#32⟩, none, none, none] := by decide
/-- 43 R202: a failing `sw` writes nothing. -/
theorem test_sw_misaligned : endAfter (.sw 8 2 9) 1#32 0#32 = (.invalidAddress, some ⟨.invalidAddress, 0⟩, 1) ∧
    Memory.word (passage (.sw 8 2 9) (quietState 1#32 64#32)).dmem 16 = 40#32 := by decide
/-- 42 R182: taken when equal, not taken when different. -/
theorem test_beq : endAfter (.beq 8 9 (.idx 3)) 3#32 3#32 = (.running, none, 3) ∧
    endAfter (.beq 8 9 (.idx 3)) 3#32 4#32 = (.running, none, 1) := by decide
/-- 42 R181: an undefined label raises even where the branch is not taken. -/
theorem test_beq_undefined : endAfter (.beq 8 9 (.sym "nowhere")) 3#32 4#32 = (.invalidLabel, some ⟨.invalidLabel, 0⟩, 1) := by
  decide
/-- 42 R183: taken when different; a target of len is valid. -/
theorem test_bne : endAfter (.bne 8 9 (.sym "end")) 3#32 4#32 = (.running, none, 4) ∧
    endAfter (.bne 8 9 (.idx 4)) 3#32 3#32 = (.running, none, 1) := by decide
/-- 42 R184: a jump; a label defined twice and an index past len do not resolve. -/
theorem test_j : endAfter (.j (.sym "top")) 0#32 0#32 = (.running, none, 0) ∧
    endAfter (.j (.sym "twice")) 0#32 0#32 = (.invalidLabel, some ⟨.invalidLabel, 0⟩, 1) ∧
    endAfter (.j (.idx 5)) 0#32 0#32 = (.invalidLabel, some ⟨.invalidLabel, 0⟩, 1) := by decide

/-- The word placed at the PC is fetched by the next step. -/
theorem test_withFetchWord :
    (turn (State.reset.withFetchWord 32 0x71096002)).ifid = .full { idx := 0, ins := .mul 12 8 9 } := by decide

/-! ### A run in the full pipeline -/

/-- A store, a load, a use of the loaded word right behind it (one stall), a taken branch (one redirect) and its squashed
successor. -/
def mainProg : Program :=
  ⟨[.slot (.ok (.addi 8 0 4)), .slot (.ok (.sw 8 0 8)), .slot (.ok (.lw 9 0 8)), .slot (.ok (.add 10 9 8)),
    .slot (.ok (.bne 10 0 (.sym "L"))), .slot (.ok (.add 11 8 8)), .slot (.ok (.addi 12 0 1))], [("L", .defined 6)]⟩

/-- The state after `k` turns of `mainProg`. -/
def mainAt (k : Nat) : State := turns k (State.launch mainProg)

/-- 70 R259: six retirements, one stall, one redirect: 6 + 4 + 1 + 2 cycles. -/
theorem test_run_cycles : (mainAt 20).status = .success ∧ (mainAt 20).cycles = 13 ∧
    readReg (mainAt 20).regs 10 = 8#32 ∧ readReg (mainAt 20).regs 11 = 0#32 := by decide

/-- The footer of that run: word 1, bytes 4 to 7, holds 4. -/
theorem test_run_footer : (mainAt 20).footer = [(4, 7, 4#32)] ∧ (mainAt 20).retiredCounts = [1, 1, 1, 1, 1, 0, 1] := by
  decide

/-! ### The hypotheses of every statement are met

One theorem for each statement that has hypotheses, named after it. -/

/-- The record of `i` in a latch, as ID leaves it with operands 0. -/
def inFlight (k : Nat) (i : Instr) : InFlight := { idx := k, ins := i, dest := destOf i }

/-- A branch distance and a jump index at the ends of their ranges, and an immediate at each end. -/
theorem witness_DecodeInvertsEncode :
    (Instr.beq 8 9 (.idx 32773)).encodable 5 = true ∧ (Instr.bne 8 9 (.idx (-32762))).encodable 5 = true ∧
    (Instr.j (.idx 0)).encodable 0 = true ∧ (Instr.j (.idx 67108863)).encodable 0 = true ∧
    (Instr.addi 8 9 (-32768)).encodable 0 = true ∧ (Instr.sw 8 32767 9).encodable 0 = true := by decide

theorem witness_EncodeInvertsDecode : decodeWord 0x0BFFFFFF#32 3 = .ok (.j (.idx 67108863)) := by decide

theorem witness_OpcodeMapSelectsWhatTheDecoderReads :
    (∃ r ∈ opcodeMap, r.selects 0x71096002#32 = true) ∧ (∀ r ∈ opcodeMap, r.selects 0x71096042#32 = false) := by decide

/-- A word and a record at the PC, each in a state that takes a cycle. -/
theorem witness_StepRunsTheFetchedInstruction :
    ((quietState 1#32 2#32).clocked ∧ (quietState 1#32 2#32).program.store[(quietState 1#32 2#32).pc]? =
      some (.word 0x01095020#32) ∧ (quietState 1#32 2#32).slotAtPc = some (.ok (.add 10 8 9))) ∧
    ((mainAt 2).clocked ∧ (mainAt 2).program.store[(mainAt 2).pc]? = some (.slot (.ok (.lw 9 0 8))) ∧
      (mainAt 2).slotAtPc = some (.ok (.lw 9 0 8))) := by decide

theorem witness_StoredWordIsFetchedNext :
    decodeWord (BitVec.ofNat 32 0x8D280000) State.reset.pc = .ok (.lw 8 0 9) ∧
    ¬ (State.reset.cycles = 0 ∧ Config.imemMax < (State.reset.withFetchWord 32 0x8D280000).program.len) := by decide

/-- The one hypothesis of AddWritesTheSum, SubWritesTheDifference, MulWritesTheLowProduct, SltWritesTheComparison and
AddiWritesTheSum, at the extremes of the signed range. -/
theorem witness_quiet : (quietState 0x7FFFFFFF#32 1#32).quiet ∧ (quietState 0x80000000#32 0xFFFFFFFF#32).quiet := by decide

/-- The lowest and the highest valid address. -/
theorem witness_LwLoadsTheWord :
    (quietState 4#32 1048576#32).quiet ∧
    validAddr (s32 (readReg (quietState 4#32 1048576#32).regs 8) + (-4)) = true ∧
    validAddr (s32 (readReg (quietState 4#32 1048576#32).regs 9) + (-4)) = true := by decide

theorem witness_SwStoresTheWord :
    (quietState 0#32 1048572#32).quiet ∧ validAddr (s32 (readReg (quietState 0#32 1048572#32).regs 8) + 0) = true ∧
    validAddr (s32 (readReg (quietState 0#32 1048572#32).regs 9) + 0) = true := by decide

/-- Both outcomes, with the lowest and the highest target. -/
theorem witness_BeqTakesEqualOperands :
    (quietState 3#32 3#32).quiet ∧ (quietState 3#32 4#32).quiet ∧
    resolveTarget (.idx 0) (quietState 3#32 3#32).program = some 0 ∧
    resolveTarget (.sym "end") (quietState 3#32 4#32).program = some 4 := by decide

theorem witness_BneTakesUnequalOperands :
    (quietState 3#32 3#32).quiet ∧ (quietState 3#32 4#32).quiet ∧
    resolveTarget (.sym "top") (quietState 3#32 3#32).program = some 0 ∧
    resolveTarget (.idx 4) (quietState 3#32 4#32).program = some 4 := by decide

theorem witness_JumpTakesTheTarget :
    (quietState 0#32 0#32).quiet ∧ resolveTarget (.idx 0) (quietState 0#32 0#32).program = some 0 ∧
    resolveTarget (.sym "end") (quietState 0#32 0#32).program = some 4 := by decide

/-- Just below the range, just above it, and misaligned inside it. -/
theorem witness_InvalidAddressAborts :
    (quietState 0#32 1048576#32).quiet ∧
    validAddr (s32 (readReg (quietState 0#32 1048576#32).regs 8) + (-4)) = false ∧
    validAddr (s32 (readReg (quietState 0#32 1048576#32).regs 9) + 0) = false ∧
    validAddr (s32 (readReg (quietState 0#32 1048576#32).regs 8) + 1) = false := by decide

/-- An index below the range and one above it, a name defined twice and a name not defined. -/
theorem witness_UnresolvedTargetAborts :
    (quietState 1#32 2#32).quiet ∧ resolveTarget (.idx (-1)) (quietState 1#32 2#32).program = none ∧
    resolveTarget (.idx 5) (quietState 1#32 2#32).program = none ∧
    resolveTarget (.sym "twice") (quietState 1#32 2#32).program = none ∧
    resolveTarget (.sym "nowhere") (quietState 1#32 2#32).program = none := by decide

theorem witness_TargetResolution :
    (((-1 : Int) < 0) ∧ (prog.len : Int) < 5) ∧ prog.labels.lookup "end" = some (.defined prog.len) ∧
    prog.labels.lookup "twice" = some .dup ∧ prog.labels.lookup "nowhere" = none := by decide

theorem witness_ArithmeticFrame :
    (quietState 1#32 2#32).quiet ∧ isLw (.mul 10 8 9) = false ∧ isSw (.mul 10 8 9) = false ∧
    transferTarget (.mul 10 8 9) = none ∧
    exec (.mul 10 8 9) (quietState 1#32 2#32) = .next (passage (.mul 10 8 9) (quietState 1#32 2#32)) :=
  ⟨by decide, by decide, by decide, by decide, rfl⟩

theorem witness_LwFrame :
    (quietState 64#32 0#32).quiet ∧
    exec (.lw 10 0 8) (quietState 64#32 0#32) = .next (passage (.lw 10 0 8) (quietState 64#32 0#32)) :=
  ⟨by decide, rfl⟩

/-- A valid address, with the bytes next to the stored ones, and an invalid one. -/
theorem witness_SwFrame :
    (quietState 64#32 2#32).quiet ∧
    exec (.sw 9 0 8) (quietState 64#32 2#32) = .next (passage (.sw 9 0 8) (quietState 64#32 2#32)) ∧
    validAddr (effAddr (readReg (quietState 64#32 2#32).regs 8) 0) = true ∧
    (63 : Int) < effAddr (readReg (quietState 64#32 2#32).regs 8) 0 ∧
    effAddr (readReg (quietState 64#32 2#32).regs 8) 0 + 4 ≤ 68 ∧
    validAddr (effAddr (readReg (quietState 64#32 2#32).regs 9) 0) = false :=
  ⟨by decide, rfl, by decide, by decide, by decide, by decide⟩

theorem witness_ControlFrame :
    (quietState 1#32 1#32).quiet ∧ transferTarget (.beq 8 9 (.idx 3)) = some (.idx 3) ∧
    exec (.beq 8 9 (.idx 3)) (quietState 1#32 1#32) = .next (passage (.beq 8 9 (.idx 3)) (quietState 1#32 1#32)) :=
  ⟨by decide, by decide, rfl⟩

theorem witness_RegisterZeroIsHardwired : (inFlight 0 (.lw 0 0 8)).dest = none := by decide

/-- The lowest and the highest word. -/
theorem witness_MemReadAfterMemWrite :
    Memory.wf (Memory.setWord [] 16 40#32) ∧ validAddr 0 = true ∧ validAddr 1048572 = true := by decide

theorem witness_FooterListsTheNonZeroWords :
    (64, 67, 40#32) ∈ (quietState 0#32 0#32).footer ∧ Memory.wf (quietState 0#32 0#32).dmem := by decide

/-- In the fifth cycle WB writes `$t0`. -/
theorem witness_OnlyWritebackWritesRegisters :
    ∃ t, step (mainAt 4) = .next t ∧ readReg t.regs 8 ≠ readReg (mainAt 4).regs 8 := ⟨_, rfl, by decide⟩

/-- In the fifth cycle MEM stores to word 1. -/
theorem witness_OnlyStoresInMemWriteMemory :
    ∃ t, step (mainAt 4) = .next t ∧ Memory.byteAt t.dmem 4 ≠ Memory.byteAt (mainAt 4).dmem 4 := ⟨_, rfl, by decide⟩

theorem witness_ProgramIsReadOnly :
    ∃ t u, step (mainAt 4) = .next t ∧ exec (.sw 8 0 9) (mainAt 4) = .next u ∧ t.program = mainProg ∧
      u.program = mainProg := ⟨_, _, rfl, rfl, by decide, by decide⟩

/-- The state before the first instruction at a bad slot. -/
def badAtPc : State := State.launch ⟨[.slot (.bad .syntaxError)], []⟩

/-- A fetch, a stall, a redirect, the end of the program, an aborting cycle, and a step that takes no cycle. -/
theorem witness_PcTakesOneOfThreeValues :
    ((mainAt 0).clocked ∧ (turn (mainAt 0)).status = .running ∧ (mainAt 0).pc < (mainAt 0).program.len) ∧
    ((mainAt 4).clocked ∧ (turn (mainAt 4)).status = .running ∧ (mainAt 4).stallNow = true) ∧
    ((mainAt 7).clocked ∧ (turn (mainAt 7)).status = .running ∧ (mainAt 7).redirectNow = some 6) ∧
    ((mainAt 9).clocked ∧ (turn (mainAt 9)).status = .running ∧ (mainAt 9).pc = (mainAt 9).program.len) ∧
    (badAtPc.clocked ∧ (turn badAtPc).status ≠ .running) ∧ ¬ (mainAt 20).clocked := by decide

/-- A bubble, an instruction with a destination and one without. -/
theorem witness_WritebackAlwaysCommits :
    (mainAt 0).memwb = .bubble ∧ (∃ F, (mainAt 4).memwb = .full F ∧ F.dest = some 8) ∧
    (∃ F, (mainAt 5).memwb = .full F ∧ F.dest = none) :=
  ⟨by decide, ⟨_, rfl, by decide⟩, ⟨_, rfl, by decide⟩⟩

theorem witness_FetchLoadsIfid :
    ∃ x, (mainAt 1).exNow = some x ∧ (mainAt 1).redirectNow = none ∧ (mainAt 1).stallNow = false ∧
      (mainAt 1).slotAtPc = some (.ok (.sw 8 0 8)) := ⟨_, rfl, by decide, by decide, by decide⟩

/-- A cycle that reads the slot; and a stall, a redirect and an older error. -/
theorem witness_BadSlotRaisesOnlyWhenRead :
    (∃ x, (mainAt 1).exNow = some x ∧ (mainAt 1).redirectNow = none ∧ (mainAt 1).stallNow = false) ∧
    (mainAt 4).stallNow = true ∧ (mainAt 7).redirectNow ≠ none ∧
    { quietState 0#32 0#32 with idex := .full (inFlight 0 (.j (.sym "nowhere"))) }.exNow = none :=
  ⟨⟨_, rfl, by decide, by decide⟩, by decide, by decide, by decide⟩

/-- The PC at len, its highest value. -/
theorem witness_PastTheEndFetchesNothing :
    ∃ x, (mainAt 9).exNow = some x ∧ (mainAt 9).redirectNow = none ∧ (mainAt 9).stallNow = false ∧
      (mainAt 9).program.len = (mainAt 9).pc := ⟨_, rfl, by decide, by decide, by decide⟩

theorem witness_RedirectExactlyWhenTaken :
    ∃ x, (mainAt 7).exNow = some x ∧ (mainAt 7).redirectNow = some 6 := ⟨_, rfl, by decide⟩

theorem witness_RedirectFlushes : (mainAt 7).redirectNow = some 6 := by decide

theorem witness_StallExactlyOnLoadUse : ∃ x, (mainAt 4).exNow = some x ∧ (mainAt 4).stallNow = true := ⟨_, rfl, by decide⟩

theorem witness_StallHoldsForOneCycle : (mainAt 4).stallNow = true := by decide

theorem witness_RedirectAndLoadUseExclude :
    ∃ x, (mainAt 7).exNow = some x ∧ x.redirect ≠ none := ⟨_, rfl, by decide⟩

/-- Each of the three inputs is selected for some register. -/
theorem witness_ForwardingPriority :
    (9#5 ≠ 0#5 ∧ (inFlight 1 (.add 9 8 8)).dest = some 9) ∧
    ((inFlight 1 (.add 10 8 8)).dest ≠ some 9 ∧ (inFlight 0 (.add 9 8 8)).dest = some 9) ∧
    ((inFlight 1 (.add 10 8 8)).dest ≠ some 9 ∧ (inFlight 0 (.add 11 8 8)).dest ≠ some 9) := by decide

/-- `sw` in IF/ID asks for `$t0`, which the `addi` in EX has just computed. -/
theorem witness_ForwardedValueIsSequential :
    ∃ m x, (mainAt 2).status = .running ∧ memStage (mainAt 2).exmem (mainAt 2).dmem = .ok m ∧
      exStage (mainAt 2).idex (mainAt 2).program = .ok x ∧
      (∀ G, (mainAt 2).idex = .full G → isLw G.ins = true → G.dest ≠ some 8) ∧
      (drain { mainAt 2 with ifid := .bubble }).status = .running ∧
      fwd 8 x.latch m.latch (wbStage (mainAt 2).memwb (mainAt 2).regs (mainAt 2).retired).regs = 4#32 :=
  ⟨_, _, by decide, rfl, rfl, fun G h hl => by cases h; exact absurd hl (by decide), by decide, by decide⟩

/-- A cycle that completes and one that aborts. -/
theorem witness_OneTraceRecordPerCompletedCycle :
    (mainAt 4).status = .running ∧ (cycle none (mainAt 4)).status = .running ∧
    (cycle (some (.bad .syntaxError)) (mainAt 1)).status ≠ .running := by decide

/-- A step that takes a cycle and one that does not. -/
theorem witness_CyclesCountEveryCycle :
    (∃ t, step (mainAt 4) = .next t ∧ (mainAt 4).clocked) ∧ (∃ t, step (mainAt 20) = .next t ∧ ¬ (mainAt 20).clocked) :=
  ⟨⟨_, rfl, by decide⟩, ⟨_, rfl, by decide⟩⟩

/-- A load at address `a` in MEM, a jump to `t` in EX. -/
def twoInFlight (a : Int) (t : Target) : State :=
  { quietState 0#32 0#32 with
    exmem := .full { inFlight 0 (.lw 10 0 8) with addr := a }
    idex := .full (inFlight 1 (.j t)) }

/-- An error in MEM, one in EX and one in IF. -/
theorem witness_AbortKeepsLatchesAndPc :
    ((twoInFlight (-4) (.idx 0)).status = .running ∧ (cycle none (twoInFlight (-4) (.idx 0))).status = .invalidAddress) ∧
    (cycle none (twoInFlight 64 (.idx 5))).status = .invalidLabel ∧
    (cycle (some (.bad .invalidRegister)) (mainAt 1)).status = .invalidRegister := by decide

/-- An invalid address at each end of the range and inside it; and a valid one before a target out of range. -/
theorem witness_OldestErrorIsReported :
    (∃ F, (twoInFlight (-4) (.idx 5)).exmem = .full F ∧ isLw F.ins = true ∧ validAddr F.addr = false) ∧
    (∃ F, (twoInFlight 1048576 (.idx 5)).exmem = .full F ∧ isLw F.ins = true ∧ validAddr F.addr = false) ∧
    (∃ F, (twoInFlight 2 (.idx 5)).exmem = .full F ∧ isLw F.ins = true ∧ validAddr F.addr = false) ∧
    ((∀ F, (twoInFlight 1048572 (.idx 5)).exmem = .full F → (isLw F.ins = true ∨ isSw F.ins = true) →
        validAddr F.addr = true) ∧
      ∃ G, (twoInFlight 1048572 (.idx 5)).idex = .full G ∧ transferTarget G.ins = some (.idx 5) ∧
        resolveTarget (.idx 5) (twoInFlight 1048572 (.idx 5)).program = none) :=
  ⟨⟨_, rfl, by decide, by decide⟩, ⟨_, rfl, by decide, by decide⟩, ⟨_, rfl, by decide, by decide⟩,
   fun F h _ => by cases h; decide, ⟨_, rfl, by decide, by decide⟩⟩

theorem witness_TerminatedCoreStays : (mainAt 20).status ≠ .running ∧ (turn badAtPc).status ≠ .running := by decide

/-- After thirteen cycles `mainProg` is drained and still runs. -/
theorem witness_DrainedCoreSucceeds :
    (mainAt 13).status = .running ∧ ¬ ((mainAt 13).cycles = 0 ∧ Config.imemMax < (mainAt 13).program.len) ∧
    (mainAt 13).program.len ≤ (mainAt 13).pc ∧ (mainAt 13).ifid = .bubble ∧ (mainAt 13).idex = .bubble ∧
    (mainAt 13).exmem = .bubble ∧ (mainAt 13).memwb = .bubble ∧ (Program.mk [] []).len = 0 := by decide

/-- A program of 2^18 + 1 slots and one of exactly 2^18. -/
theorem witness_OversizeProgramIsRefused :
    262144 < (Program.mk (List.replicate 262145 (.word 0#32)) []).len ∧
    (Program.mk (List.replicate 262144 (.word 0#32)) []).len ≤ 262144 :=
  ⟨by rw [Program.len, List.length_replicate]; decide, by rw [Program.len, List.length_replicate]⟩

theorem witness_ResetValues : 262144 < (Program.mk (List.replicate 262145 (.word 0#32)) []).len := by
  rw [Program.len, List.length_replicate]; decide

/-- A use behind a `lw`: a state with an instruction in every latch, as it stands after four cycles of `mainProg`. -/
def busyState : State :=
  { State.launch mainProg with
    pc := 4
    ifid := .full { idx := 3, ins := .add 10 9 8 }
    idex := .full { inFlight 2 (.lw 9 0 8) with addr := 4 }
    exmem := .full { inFlight 1 (.sw 8 0 8) with addr := 4, sdata := 4#32 }
    memwb := .full { inFlight 0 (.addi 8 0 4) with res := 4#32 }
    cycles := 4
    trace := List.replicate 4 (State.launch mainProg).idleRecord }

/-- The run reaches `busyState`. -/
theorem test_busyState : mainAt 4 = busyState := by decide

theorem witness_StepKeepsPipelineInvariant : busyState.pipelineInv ∧ ∃ t, step busyState = .next t :=
  ⟨{ pcInRange := by decide
     pcAfterIfid := fun F h => by cases h; rfl
     fromIfid := fun F h => by cases h; rfl
     fromIdex := fun F h => by cases h; rfl
     fromExmem := fun F h => by cases h; rfl
     fromMemwb := fun F h => by cases h; rfl }, _, rfl⟩

theorem witness_StepKeepsLatchForms : busyState.latchForms ∧ ∃ t, step busyState = .next t :=
  ⟨{ ifid := fun F h => by cases h; rfl
     idex := fun F h => by cases h; rfl
     exmem := fun F h => by cases h; rfl
     memwb := fun F h => by cases h; rfl }, _, rfl⟩

theorem witness_StepKeepsStorageCanonical :
    busyState.pipelineInv ∧ busyState.storageInv ∧ ∃ t, step busyState = .next t :=
  ⟨witness_StepKeepsPipelineInvariant.1,
   { memWf := by decide
     memRange := fun c h => by cases h
     countsWf := by decide
     countsRange := fun c h => by cases h }, _, rfl⟩

theorem witness_StepKeepsBookkeeping : busyState.statusInv ∧ busyState.traceInv ∧ ∃ t, step busyState = .next t :=
  ⟨Or.inl rfl, rfl, _, rfl⟩

theorem witness_StepKeepsRegisterZero : busyState.regZero ∧ ∃ t, step busyState = .next t := ⟨by decide, _, rfl⟩

/-- A use of `$t0` fetched while its producer is in IF/ID. -/
theorem witness_PassageAgreesWithOneAtATime :
    ∃ t, (mainAt 1).status = .running ∧ (mainAt 1).ifid.noTransfer = true ∧ (mainAt 1).idex.noTransfer = true ∧
      (mainAt 1).stallNow = false ∧ exec (.add 10 8 8) (mainAt 1) = .next t ∧ t.status = .running ∧
      readReg t.regs 10 = 8#32 := ⟨_, by decide, by decide, by decide, by decide, rfl, by decide, by decide⟩

/-- An instruction with an effect and one with an error. -/
theorem witness_ExecHasTheArchitecturalEffect :
    (quietState 1#32 2#32).quiet ∧
    (∃ a, archEffect (quietState 1#32 2#32).program (.add 10 8 9) (quietState 1#32 2#32).arch = .ok a) ∧
    (∃ e, archEffect (quietState 1#32 2#32).program (.lw 10 1 8) (quietState 1#32 2#32).arch = .error e) :=
  ⟨by decide, ⟨_, rfl⟩, ⟨_, rfl⟩⟩

theorem witness_SequentialEquivalence : (turns 20 (State.launch mainProg)).status = .success := by decide

/-- A program with a stall and a redirect, and the empty program. -/
theorem witness_CycleCountOfASuccessfulRun :
    (turns 20 (State.launch mainProg)).status = .success ∧ 1 ≤ mainProg.len ∧
    (turns 1 (State.launch ⟨[], []⟩)).status = .success ∧ (Program.mk [] []).len = 0 := by decide

end Sys2Proof.Tests
end

section
/-! PROOFS. The cycle counter (spec/10_state.md R32). -/

namespace Sys2Proof.Machine

/-- The counter rises before any stage can raise, so a cycle that aborts in MEM, EX or IF counts like one that commits
(10 R32, 40 R126). -/
@[simp] theorem cycle_cycles (f : Option Slot) (s : State) : (cycle f s).cycles = s.cycles + 1 := by
  rcases cycle_cases f s with ⟨e, -, h⟩ | ⟨m, e, -, -, h⟩ | ⟨m, x, e, -, -, -, h⟩ | ⟨m, x, g, -, -, -, h⟩
  · rw [h, State.abort_cycles, State.afterWb_cycles]
  · rw [h, State.abort_cycles, State.afterMem_cycles]
  · rw [h, State.abort_cycles, State.afterMem_cycles]
  · rw [h, State.committed_cycles]

/-- Of the four kinds of turn only the clock cycle moves the counter: a terminated core stays as it is, and the size
check and the end in Success write `status` and `err` alone (40 R123). -/
theorem turn_cycles (s : State) : (turn s).cycles = if s.clocked then s.cycles + 1 else s.cycles := by
  rcases turn_cases s with ⟨hstop, h⟩ | ⟨-, hsize, h⟩ | ⟨-, -, hdrained, h⟩ | ⟨hclocked, h⟩
  · have hidle : ¬ s.clocked := fun ⟨hrun, _, _⟩ => hstop hrun
    rw [h, if_neg hidle]
  · have hidle : ¬ s.clocked := fun ⟨_, hfits, _⟩ => hfits hsize
    rw [h, if_neg hidle, State.abort_cycles]
  · have hidle : ¬ s.clocked := fun ⟨_, _, hbusy⟩ => hbusy hdrained
    rw [h, if_neg hidle, State.succeed_cycles]
  · rw [h, if_pos hclocked, cycle_cycles]

/-- Settles O43: reset clears the counter, and a step is a turn. -/
theorem cyclesCountEveryCycle : Obligations.CyclesCountEveryCycle := by
  unfold Obligations.CyclesCountEveryCycle
  refine ⟨rfl, fun s t hstep => ?_⟩
  obtain rfl : turn s = t := Host.Outcome.next.inj hstep
  exact turn_cycles s

end Sys2Proof.Machine
end

section
/-! PROOFS. The read-only program (spec/20_memory.md R63). -/

namespace Sys2Proof.Machine

/-- Neither where a cycle aborts nor where it commits does any stage write the program (20 R63). -/
@[simp] theorem cycle_program (f : Option Slot) (s : State) : (cycle f s).program = s.program := by
  rcases cycle_cases f s with ⟨e, -, h⟩ | ⟨m, e, -, -, h⟩ | ⟨m, x, e, -, -, -, h⟩ | ⟨m, x, g, -, -, -, h⟩
  · rw [h, State.abort_program, State.afterWb_program]
  · rw [h, State.abort_program, State.afterMem_program]
  · rw [h, State.abort_program, State.afterMem_program]
  · rw [h, State.committed_program]

/-- Each of the four kinds of turn keeps the program; only the clock cycle runs stages at all (40 R123). -/
@[simp] theorem turn_program (s : State) : (turn s).program = s.program := by
  rcases turn_cases s with ⟨-, h⟩ | ⟨-, -, h⟩ | ⟨-, -, -, h⟩ | ⟨-, h⟩
  · rw [h]
  · rw [h, State.abort_program]
  · rw [h, State.succeed_program]
  · rw [h, cycle_program]

@[simp] theorem drainFor_program (n : Nat) (s : State) : (drainFor n s).program = s.program := by
  induction n generalizing s with
  | zero => rw [drainFor_zero]
  | succ n ih =>
    by_cases hbusy : s.status = .running ∧ ¬ s.latchesEmpty
    · rw [drainFor_cycle hbusy, ih, cycle_program]
    · rw [drainFor_done hbusy]

/-- The passage offers its instruction to IF without placing it in the instruction store (log 5). -/
@[simp] theorem passage_program (i : Instr) (s : State) : (passage i s).program = s.program := by
  by_cases hrun : s.status = .running
  · rw [passage_running hrun, drain, drainFor_program, cycle_program]
  · rw [passage, if_neg hrun]

/-- Settles O29: a step is a turn, and each instruction's `exec` is its passage. -/
theorem programIsReadOnly : Obligations.ProgramIsReadOnly := by
  unfold Obligations.ProgramIsReadOnly
  refine ⟨fun s t hstep => ?_, fun i s t hexec => ?_⟩
  · obtain rfl : turn s = t := Host.Outcome.next.inj hstep
    exact turn_program s
  · rw [exec_eq] at hexec
    obtain rfl : passage i s = t := Host.Outcome.next.inj hexec
    exact passage_program i s

end Sys2Proof.Machine
end

section
/-! PROOFS. Writeback (spec/40_pipeline_engine.md R103). -/

namespace Sys2Proof.Machine

/-- The registers a cycle leaves are WB's, because WB comes first and an abort keeps what it did (40 R124). -/
@[simp] theorem cycle_regs (f : Option Slot) (s : State) : (cycle f s).regs = s.afterWb.regs := by
  rcases cycle_cases f s with ⟨e, -, h⟩ | ⟨m, e, -, -, h⟩ | ⟨m, x, e, -, -, -, h⟩ | ⟨m, x, g, -, -, -, h⟩
  · rw [h, State.abort_regs]
  · rw [h, State.abort_regs, State.afterMem_regs]
  · rw [h, State.abort_regs, State.afterMem_regs]
  · rw [h, State.committed_regs]

/-- The counters a cycle leaves are WB's: no other stage retires (40 R103, R124). -/
@[simp] theorem cycle_retired (f : Option Slot) (s : State) : (cycle f s).retired = s.afterWb.retired := by
  rcases cycle_cases f s with ⟨e, -, h⟩ | ⟨m, e, -, -, h⟩ | ⟨m, x, e, -, -, -, h⟩ | ⟨m, x, g, -, -, -, h⟩
  · rw [h, State.abort_retired]
  · rw [h, State.abort_retired, State.afterMem_retired]
  · rw [h, State.abort_retired, State.afterMem_retired]
  · rw [h, State.committed_retired]

/-- Settles O31: a cycle leaves WB's registers and counters, and WB acts on what MEM/WB holds. -/
theorem writebackAlwaysCommits : Obligations.WritebackAlwaysCommits := by
  unfold Obligations.WritebackAlwaysCommits
  intro f s
  rw [cycle_regs, cycle_retired]
  refine ⟨State.afterWb_bubble, fun F hfull => ?_⟩
  obtain ⟨hregs, hretired⟩ := State.afterWb_full hfull
  refine ⟨fun r hdest => ?_, fun hdest => ?_, hretired⟩
  · rw [hregs, hdest]
  · rw [hregs, hdest]

end Sys2Proof.Machine
end

section
/-! PROOFS. Fetching (spec/40_pipeline_engine.md R114, R116). -/

namespace Sys2Proof.Machine

/-- Where no stage raises, the cycle loads IF/ID and the PC with what IF puts out under the cycle's own redirect and
stall signals (40 R119, R120). -/
theorem cycle_loads_ifStage {f : Option Slot} {s : State} {x : ExOut} {l : Latch} {pc : Nat} (hx : s.exNow = some x)
    (hif : ifStage f s.redirectNow s.stallNow s.ifid s.pc = .ok ⟨l, pc⟩) :
    (cycle f s).ifid = l ∧ (cycle f s).pc = pc := by
  obtain ⟨m, hmem, hex⟩ := exNow_eq_some.mp hx
  rw [redirectNow_eq hx, stallNow_eq hx] at hif
  rw [cycle_committed hmem hex hif]
  exact ⟨State.committed_ifid s m x ⟨l, pc⟩, State.committed_pc s m x ⟨l, pc⟩⟩

/-- Settles O32: IF reads the slot `Ok i`. -/
theorem fetchLoadsIfid : Obligations.FetchLoadsIfid := by
  unfold Obligations.FetchLoadsIfid
  intro s x i hx hredirect hstall hslot
  apply cycle_loads_ifStage hx
  rw [hredirect, hstall, hslot, ifStage_fetch]

/-- Settles O34: past the end the instruction store answers nothing, so IF has nothing to read. -/
theorem pastTheEndFetchesNothing : Obligations.PastTheEndFetchesNothing := by
  unfold Obligations.PastTheEndFetchesNothing
  intro s x hx hredirect hstall hend
  have hslot : s.slotAtPc = none := (slotAtPc_eq_none s).mpr hend
  apply cycle_loads_ifStage hx
  rw [hredirect, hstall, hslot, ifStage_nothing]

end Sys2Proof.Machine
end

section
/-! PROOFS. The hazard detection unit (spec/40_pipeline_engine.md R108). -/

namespace Sys2Proof.Machine

/-- The load-use condition in words of the two latches it compares (40 R108). -/
theorem loadUse_iff (l l' : Latch) :
    loadUse l l' = true ↔
      ∃ F G r, l = .full F ∧ l' = .full G ∧ isLw G.ins = true ∧ G.dest = some r ∧ r ∈ srcsOf F.ins := by
  cases l with
  | bubble => simp
  | full F =>
    cases l' with
    | bubble => simp
    | full G => cases hdest : G.dest <;> simp [loadUse, hdest]

/-- The stall signal gives way to a redirect (40 R108, R119). -/
theorem State.stallWith_iff (s : State) (x : ExOut) :
    s.stallWith x = true ↔ x.redirect = none ∧ loadUse s.ifid x.latch = true := by
  simp [State.stallWith]

/-- EX passes a `lw` on as it is and does not redirect (40 R105). -/
theorem exStage_lw {G : InFlight} (hlw : isLw G.ins = true) (P : Program) :
    exStage (.full G) P = .ok ⟨.full G, none⟩ := by
  obtain ⟨ix, ins, d, a, b, ad, sd, rs⟩ := G
  cases ins
  case lw => rfl
  all_goals cases hlw

/-- A `lw` that EX puts out was in ID/EX, the same record: only a load or a store passes EX untouched (40 R105). -/
theorem idex_of_exStage_lw {l : Latch} {P : Program} {x : ExOut} {G : InFlight} (hex : exStage l P = .ok x)
    (hlatch : x.latch = .full G) (hlw : isLw G.ins = true) : l = .full G := by
  rcases exStage_ok hex with ⟨-, rfl⟩ | ⟨F, v, -, hno, -, -, rfl⟩ | ⟨F, hl, -, -, rfl⟩ | ⟨F, t, n, b, -, hno, -, -, -, rfl⟩
  · cases hlatch
  · obtain rfl := Latch.full.inj hlatch
    exact absurd (hno.symm.trans hlw) (by decide)
  · exact hl.trans hlatch
  · obtain rfl := Latch.full.inj hlatch
    exact absurd (hno.symm.trans hlw) (by decide)

/-- Settles O37: the `lw` that the hazard unit sees in EX/MEM' is the one in ID/EX, and EX does not redirect for it. -/
theorem stallExactlyOnLoadUse : Obligations.StallExactlyOnLoadUse := by
  unfold Obligations.StallExactlyOnLoadUse
  intro s x hx
  obtain ⟨m, -, hex⟩ := exNow_eq_some.mp hx
  rw [stallNow_eq hx, redirectNow_eq hx, State.stallWith_iff, loadUse_iff]
  refine ⟨And.left, ?_, ?_⟩
  · rintro ⟨-, F, G, r, hifid, hlatch, hlw, hdest, hreads⟩
    exact ⟨F, G, r, hifid, idex_of_exStage_lw hex hlatch hlw, hlw, hdest, hreads⟩
  · rintro ⟨F, G, r, hifid, hidex, hlw, hdest, hreads⟩
    rw [hidex, exStage_lw hlw] at hex
    obtain rfl : ⟨.full G, none⟩ = x := Except.ok.inj hex
    exact ⟨rfl, F, G, r, hifid, rfl, hlw, hdest, hreads⟩

end Sys2Proof.Machine
end

section
/-! PROOFS. The ends of a run that take no cycle: the size check (spec/60_exceptions.md R225) and Success (R226). -/

namespace Sys2Proof.Machine

/-! ### The turns that take no cycle -/

theorem turn_terminated {s : State} (hstop : s.status ≠ .running) : turn s = s := by
  rw [turn, if_pos hstop]

theorem turn_oversize {s : State} (hrun : s.status = .running) (hsize : s.cycles = 0 ∧ Config.imemMax < s.program.len) :
    turn s = s.abort ⟨.memoryLimitExceeded, s.program.len⟩ := by
  rw [turn, if_neg (not_not_intro hrun), if_pos hsize]

theorem turn_drained {s : State} (hrun : s.status = .running)
    (hfits : ¬ (s.cycles = 0 ∧ Config.imemMax < s.program.len)) (hdrained : s.drained) : turn s = s.succeed := by
  rw [turn, if_neg (not_not_intro hrun), if_neg hfits, if_pos hdrained]

theorem turns_terminated {s : State} (hstop : s.status ≠ .running) (k : Nat) : turns k s = s := by
  induction k with
  | zero => rfl
  | succ k ih => rw [turns, turn_terminated hstop, ih]

/-- Settles O47: a drained core's turn is `succeed`; the launch of the empty program is such a core. -/
theorem drainedCoreSucceeds : Obligations.DrainedCoreSucceeds := by
  unfold Obligations.DrainedCoreSucceeds
  refine ⟨fun s hrun hfits hpc hifid hidex hexmem hmemwb => ?_, fun P hempty => ?_⟩
  · rw [step_eq, turn_drained hrun hfits ⟨hpc, hifid, hidex, hexmem, hmemwb⟩, State.succeed]
  · have hfits : ¬ ((State.launch P).cycles = 0 ∧ Config.imemMax < (State.launch P).program.len) := by simp [hempty]
    have hdrained : (State.launch P).drained := ⟨hempty.le, rfl, rfl, rfl, rfl⟩
    refine ⟨(State.launch P).succeed, ?_, State.succeed_status _, ?_, ?_⟩
    · rw [step_eq, turn_drained (State.launch_status P) hfits hdrained]
    · rw [State.succeed_err, State.launch_err]
    · rw [State.succeed_cycles, State.launch_cycles]

/-! ### MemoryLimitExceeded comes from the size check alone -/

theorem State.abort_status_ne_memoryLimitExceeded (s : State) {e : ErrRecord} (he : e.kind ≠ .memoryLimitExceeded) :
    (s.abort e).status ≠ .memoryLimitExceeded := by
  rw [State.abort_status]
  cases hkind : e.kind
  case memoryLimitExceeded => exact absurd hkind he
  all_goals decide

/-- A `Bad` slot raises SyntaxError or InvalidRegister (60 R221, R222). -/
theorem badErr_ne_memoryLimitExceeded (b : BadKind) : badErr b ≠ .memoryLimitExceeded := by
  cases b <;> decide

/-- No stage raises MemoryLimitExceeded: MEM raises InvalidAddress, EX InvalidLabel, and IF what the slot holds. -/
theorem cycle_status_ne_memoryLimitExceeded (f : Option Slot) {s : State} (hs : s.status ≠ .memoryLimitExceeded) :
    (cycle f s).status ≠ .memoryLimitExceeded := by
  rcases cycle_cases f s with ⟨e, hmem, h⟩ | ⟨m, e, -, hex, h⟩ | ⟨m, x, e, -, -, hif, h⟩ | ⟨m, x, g, -, -, -, h⟩
  · obtain ⟨F, -, -, -, rfl⟩ := memStage_error hmem
    rw [h]
    exact State.abort_status_ne_memoryLimitExceeded _ nofun
  · obtain ⟨F, t, -, -, -, rfl⟩ := exStage_error hex
    rw [h]
    exact State.abort_status_ne_memoryLimitExceeded _ nofun
  · obtain ⟨-, -, b, -, rfl⟩ := ifStage_error hif
    rw [h]
    exact State.abort_status_ne_memoryLimitExceeded _ (badErr_ne_memoryLimitExceeded b)
  · rwa [h, State.committed_status]

/-- Of the four kinds of turn only the size check writes MemoryLimitExceeded, and a program that fits passes it. -/
theorem turn_status_ne_memoryLimitExceeded {s : State} (hfits : s.program.len ≤ Config.imemMax)
    (hs : s.status ≠ .memoryLimitExceeded) : (turn s).status ≠ .memoryLimitExceeded := by
  rcases turn_cases s with ⟨-, h⟩ | ⟨-, ⟨-, hover⟩, -⟩ | ⟨-, -, -, h⟩ | ⟨-, h⟩
  · rwa [h]
  · exact absurd hfits (Nat.not_le.mpr hover)
  · rw [h, State.succeed_status]
    decide
  · rw [h]
    exact cycle_status_ne_memoryLimitExceeded s.slotAtPc hs

theorem turns_status_ne_memoryLimitExceeded {s : State} (hfits : s.program.len ≤ Config.imemMax)
    (hs : s.status ≠ .memoryLimitExceeded) (k : Nat) : (turns k s).status ≠ .memoryLimitExceeded := by
  induction k generalizing s with
  | zero => exact hs
  | succ k ih =>
    have hfits' : (turn s).program.len ≤ Config.imemMax := by rwa [turn_program]
    exact ih hfits' (turn_status_ne_memoryLimitExceeded hfits hs)

/-- Settles O48: the first turn is the size check, and the turns behind it find a terminated core. -/
theorem oversizeProgramIsRefused : Obligations.OversizeProgramIsRefused := by
  unfold Obligations.OversizeProgramIsRefused
  refine fun P k => ⟨fun hover => ?_, fun hfits => ?_⟩
  · have hcheck : turn (State.launch P) = (State.launch P).abort ⟨.memoryLimitExceeded, P.len⟩ :=
      turn_oversize (State.launch_status P) ⟨State.launch_cycles P, hover⟩
    have hstop : ((State.launch P).abort ⟨.memoryLimitExceeded, P.len⟩).status ≠ .running :=
      ErrKind.status_ne_running .memoryLimitExceeded
    rw [turns, hcheck, turns_terminated hstop, State.abort, ErrKind.status]
  · have hrunning : (State.launch P).status ≠ .memoryLimitExceeded := by
      rw [State.launch_status]
      decide
    exact turns_status_ne_memoryLimitExceeded hfits hrunning k

end Sys2Proof.Machine
end

section
/-! PROOFS. The binary form (spec/30_encoding.md section 2). A word is read as the number whose digits are its six
R-format fields, so that what a format holds and what a field reads are facts of arithmetic. -/

namespace Sys2Proof

/-! ### Fields and formats as numbers -/

/-- Putting bits behind a vector shifts its number and adds theirs. -/
theorem toNat_append_eq_add {m n : Nat} (x : BitVec m) (y : BitVec n) :
    (x ++ y).toNat = x.toNat * 2 ^ n + y.toNat := by
  rw [BitVec.toNat_append, ← Nat.shiftLeft_add_eq_or_of_lt y.isLt, Nat.shiftLeft_eq]

theorem toNat_rFormat (op : BitVec 6) (rs rt rd : Reg) (fn : BitVec 6) :
    (rFormat op rs rt rd fn).toNat =
      op.toNat * 2 ^ 26 + rs.toNat * 2 ^ 21 + rt.toNat * 2 ^ 16 + rd.toNat * 2 ^ 11 + fn.toNat := by
  have h : (rFormat op rs rt rd fn).toNat = (op ++ rs ++ rt ++ rd ++ 0#5 ++ fn).toNat := rfl
  simp only [h, toNat_append_eq_add, BitVec.toNat_ofNat]
  omega

theorem toNat_iFormat (op : BitVec 6) (rs rt : Reg) (imm : BitVec 16) :
    (iFormat op rs rt imm).toNat = op.toNat * 2 ^ 26 + rs.toNat * 2 ^ 21 + rt.toNat * 2 ^ 16 + imm.toNat := by
  have h : (iFormat op rs rt imm).toNat = (op ++ rs ++ rt ++ imm).toNat := rfl
  simp only [h, toNat_append_eq_add]
  omega

theorem toNat_jFormat (op : BitVec 6) (target : BitVec 26) :
    (jFormat op target).toNat = op.toNat * 2 ^ 26 + target.toNat := by
  have h : (jFormat op target).toNat = (op ++ target).toNat := rfl
  rw [h, toNat_append_eq_add]

theorem toNat_extractLsb' {n : Nat} (w : BitVec n) (low len : Nat) :
    (w.extractLsb' low len).toNat = w.toNat / 2 ^ low % 2 ^ len := by
  rw [BitVec.extractLsb'_toNat, Nat.shiftRight_eq_div_pow]

/-! ### What a field of a format reads -/

section
variable (op fn : BitVec 6) (rs rt rd : Reg) (imm : BitVec 16) (target : BitVec 26)

@[simp] theorem opField_rFormat : opField (rFormat op rs rt rd fn) = op := by
  apply BitVec.eq_of_toNat_eq
  rw [opField, toNat_extractLsb', toNat_rFormat]
  omega

@[simp] theorem rsField_rFormat : rsField (rFormat op rs rt rd fn) = rs := by
  apply BitVec.eq_of_toNat_eq
  rw [rsField, toNat_extractLsb', toNat_rFormat]
  omega

@[simp] theorem rtField_rFormat : rtField (rFormat op rs rt rd fn) = rt := by
  apply BitVec.eq_of_toNat_eq
  rw [rtField, toNat_extractLsb', toNat_rFormat]
  omega

@[simp] theorem rdField_rFormat : rdField (rFormat op rs rt rd fn) = rd := by
  apply BitVec.eq_of_toNat_eq
  rw [rdField, toNat_extractLsb', toNat_rFormat]
  omega

@[simp] theorem shamtField_rFormat : shamtField (rFormat op rs rt rd fn) = 0#5 := by
  apply BitVec.eq_of_toNat_eq
  rw [shamtField, toNat_extractLsb', toNat_rFormat, BitVec.toNat_ofNat]
  omega

@[simp] theorem functField_rFormat : functField (rFormat op rs rt rd fn) = fn := by
  apply BitVec.eq_of_toNat_eq
  rw [functField, toNat_extractLsb', toNat_rFormat]
  omega

@[simp] theorem opField_iFormat : opField (iFormat op rs rt imm) = op := by
  apply BitVec.eq_of_toNat_eq
  rw [opField, toNat_extractLsb', toNat_iFormat]
  omega

@[simp] theorem rsField_iFormat : rsField (iFormat op rs rt imm) = rs := by
  apply BitVec.eq_of_toNat_eq
  rw [rsField, toNat_extractLsb', toNat_iFormat]
  omega

@[simp] theorem rtField_iFormat : rtField (iFormat op rs rt imm) = rt := by
  apply BitVec.eq_of_toNat_eq
  rw [rtField, toNat_extractLsb', toNat_iFormat]
  omega

@[simp] theorem imm16Field_iFormat : imm16Field (iFormat op rs rt imm) = imm := by
  apply BitVec.eq_of_toNat_eq
  rw [imm16Field, toNat_extractLsb', toNat_iFormat]
  omega

@[simp] theorem opField_jFormat : opField (jFormat op target) = op := by
  apply BitVec.eq_of_toNat_eq
  rw [opField, toNat_extractLsb', toNat_jFormat]
  omega

@[simp] theorem target26Field_jFormat : target26Field (jFormat op target) = target := by
  apply BitVec.eq_of_toNat_eq
  rw [target26Field, toNat_extractLsb', toNat_jFormat]
  omega

end

/-! ### A word is its fields -/

/-- The fields of the R format cover all 32 bits (30 R78). -/
theorem toNat_eq_fields (w : Word) :
    w.toNat = (opField w).toNat * 2 ^ 26 + (rsField w).toNat * 2 ^ 21 + (rtField w).toNat * 2 ^ 16 +
      (rdField w).toNat * 2 ^ 11 + (shamtField w).toNat * 2 ^ 6 + (functField w).toNat := by
  have hw := w.isLt
  simp only [opField, rsField, rtField, rdField, shamtField, functField, toNat_extractLsb']
  omega

theorem rFormat_of_fields {w : Word} {op : BitVec 6} {fn : BitVec 6} (hop : opField w = op)
    (hsh : shamtField w = 0#5) (hfn : functField w = fn) : rFormat op (rsField w) (rtField w) (rdField w) fn = w := by
  apply BitVec.eq_of_toNat_eq
  rw [toNat_rFormat, toNat_eq_fields w, hop, hsh, hfn]
  simp

theorem iFormat_of_fields {w : Word} {op : BitVec 6} (hop : opField w = op) :
    iFormat op (rsField w) (rtField w) (imm16Field w) = w := by
  have hw := w.isLt
  apply BitVec.eq_of_toNat_eq
  simp only [← hop, toNat_iFormat, opField, rsField, rtField, imm16Field, toNat_extractLsb']
  omega

theorem jFormat_of_fields {w : Word} {op : BitVec 6} (hop : opField w = op) : jFormat op (target26Field w) = w := by
  have hw := w.isLt
  apply BitVec.eq_of_toNat_eq
  simp only [← hop, toNat_jFormat, opField, target26Field, toNat_extractLsb']
  omega

/-! ### Immediates and targets (30 R81) -/

theorem immOf_eq (w : Word) : immOf w = (imm16Field w).toInt :=
  BitVec.toInt_signExtend_of_le (by decide)

theorem immOf_inInt16 (w : Word) : inInt16 (immOf w) = true := by
  have hlow := (imm16Field w).le_toInt
  have hhigh := (imm16Field w).toInt_lt
  simp only [immOf_eq, decide_eq_true_eq]
  omega

/-- An integer of 16 signed bits is what its field reads as. -/
theorem toInt_ofInt_of_inInt16 {n : Int} (hn : inInt16 n = true) : (BitVec.ofInt 16 n).toInt = n := by
  have hrange := of_decide_eq_true hn
  rw [BitVec.toInt_ofInt]
  exact Int.bmod_eq_of_le (by omega) (by omega)

theorem immOf_iFormat {op : BitVec 6} {rs rt : Reg} {n : Int} (hn : inInt16 n = true) :
    immOf (iFormat op rs rt (BitVec.ofInt 16 n)) = n := by
  rw [immOf_eq, imm16Field_iFormat, toInt_ofInt_of_inInt16 hn]

/-- The field of the immediate that a word holds is the word's own. -/
theorem ofInt_immOf (w : Word) : BitVec.ofInt 16 (immOf w) = imm16Field w := by
  rw [immOf_eq, BitVec.ofInt_toInt]

theorem iFormat_immOf {w : Word} {op : BitVec 6} (hop : opField w = op) :
    iFormat op (rsField w) (rtField w) (BitVec.ofInt 16 (immOf w)) = w := by
  rw [ofInt_immOf, iFormat_of_fields hop]

theorem branchTarget_iFormat {op : BitVec 6} {rs rt : Reg} {t : Target} {k : Nat}
    (ht : t.branchEncodable k = true) : branchTarget (iFormat op rs rt (t.branchField k)) k = t := by
  cases t with
  | idx n =>
    rw [branchTarget, Target.branchField, immOf_iFormat ht]
    congr 1
    omega
  | sym name => cases ht

theorem branchTarget_encodable (w : Word) (k : Nat) : (branchTarget w k).branchEncodable k = true := by
  have hdistance : (k : Int) + 1 + immOf w - (k + 1) = immOf w := by omega
  rw [branchTarget, Target.branchEncodable, hdistance]
  exact immOf_inInt16 w

theorem branchField_branchTarget (w : Word) (k : Nat) : (branchTarget w k).branchField k = imm16Field w := by
  have hdistance : (k : Int) + 1 + immOf w - (k + 1) = immOf w := by omega
  rw [branchTarget, Target.branchField, hdistance, ofInt_immOf]

theorem iFormat_branchTarget {w : Word} {op : BitVec 6} (hop : opField w = op) (k : Nat) :
    iFormat op (rsField w) (rtField w) ((branchTarget w k).branchField k) = w := by
  rw [branchField_branchTarget, iFormat_of_fields hop]

theorem jumpTarget_eq (w : Word) : jumpTarget w = .idx (target26Field w).toNat := by
  have hw := (target26Field w).isLt
  simp only [jumpTarget, BitVec.toNat_setWidth]
  congr 2
  omega

theorem jumpTarget_jFormat {op : BitVec 6} {t : Target} (ht : t.jumpEncodable = true) :
    jumpTarget (jFormat op t.jumpField) = t := by
  cases t with
  | idx n =>
    have hrange := of_decide_eq_true ht
    rw [jumpTarget_eq, target26Field_jFormat, Target.jumpField, BitVec.toNat_ofInt]
    congr 1
    omega
  | sym name => cases ht

theorem jumpTarget_encodable (w : Word) : (jumpTarget w).jumpEncodable = true := by
  have hw := (target26Field w).isLt
  simp only [jumpTarget_eq, Target.jumpEncodable, decide_eq_true_eq]
  omega

theorem jumpField_jumpTarget (w : Word) : (jumpTarget w).jumpField = target26Field w := by
  rw [jumpTarget_eq, Target.jumpField, BitVec.ofInt_natCast, BitVec.ofNat_toNat, BitVec.setWidth_eq]

theorem jFormat_jumpTarget {w : Word} {op : BitVec 6} (hop : opField w = op) :
    jFormat op (jumpTarget w).jumpField = w := by
  rw [jumpField_jumpTarget, jFormat_of_fields hop]

theorem inInt32_of_inInt16 {n : Int} (hn : inInt16 n = true) : inInt32 n = true := by
  have hrange := of_decide_eq_true hn
  exact decide_eq_true (by omega)

/-! ### What the decoder reads in each row (30 R82, R83) -/

section
variable {w : Word} {k : Nat}

theorem decodeWord_add (hop : opField w = 0x00#6) (hsh : shamtField w = 0#5) (hfn : functField w = 0x20#6) :
    decodeWord w k = .ok (.add (rdField w) (rsField w) (rtField w)) := by simp [decodeWord, hop, hsh, hfn]

theorem decodeWord_sub (hop : opField w = 0x00#6) (hsh : shamtField w = 0#5) (hfn : functField w = 0x22#6) :
    decodeWord w k = .ok (.sub (rdField w) (rsField w) (rtField w)) := by simp [decodeWord, hop, hsh, hfn]

theorem decodeWord_slt (hop : opField w = 0x00#6) (hsh : shamtField w = 0#5) (hfn : functField w = 0x2A#6) :
    decodeWord w k = .ok (.slt (rdField w) (rsField w) (rtField w)) := by simp [decodeWord, hop, hsh, hfn]

theorem decodeWord_mul (hop : opField w = 0x1C#6) (hsh : shamtField w = 0#5) (hfn : functField w = 0x02#6) :
    decodeWord w k = .ok (.mul (rdField w) (rsField w) (rtField w)) := by simp [decodeWord, hop, hsh, hfn]

theorem decodeWord_beq (hop : opField w = 0x04#6) :
    decodeWord w k = .ok (.beq (rsField w) (rtField w) (branchTarget w k)) := by simp [decodeWord, hop]

theorem decodeWord_bne (hop : opField w = 0x05#6) :
    decodeWord w k = .ok (.bne (rsField w) (rtField w) (branchTarget w k)) := by simp [decodeWord, hop]

theorem decodeWord_j (hop : opField w = 0x02#6) : decodeWord w k = .ok (.j (jumpTarget w)) := by
  simp [decodeWord, hop]

theorem decodeWord_lw (hop : opField w = 0x23#6) :
    decodeWord w k = .ok (.lw (rtField w) (immOf w) (rsField w)) := by simp [decodeWord, hop]

theorem decodeWord_sw (hop : opField w = 0x2B#6) :
    decodeWord w k = .ok (.sw (rtField w) (immOf w) (rsField w)) := by simp [decodeWord, hop]

theorem decodeWord_addi (hop : opField w = 0x08#6) :
    decodeWord w k = .ok (.addi (rtField w) (rsField w) (immOf w)) := by simp [decodeWord, hop]

end

/-- Settles O1: each row's fields of the encoded word are the instruction's operands. -/
theorem decodeInvertsEncode : Obligations.DecodeInvertsEncode := by
  unfold Obligations.DecodeInvertsEncode
  intro i k hi
  cases i with
  | add rd rs rt =>
    rw [encode, decodeWord_add (opField_rFormat ..) (shamtField_rFormat ..) (functField_rFormat ..), rdField_rFormat,
      rsField_rFormat, rtField_rFormat]
  | sub rd rs rt =>
    rw [encode, decodeWord_sub (opField_rFormat ..) (shamtField_rFormat ..) (functField_rFormat ..), rdField_rFormat,
      rsField_rFormat, rtField_rFormat]
  | slt rd rs rt =>
    rw [encode, decodeWord_slt (opField_rFormat ..) (shamtField_rFormat ..) (functField_rFormat ..), rdField_rFormat,
      rsField_rFormat, rtField_rFormat]
  | mul rd rs rt =>
    rw [encode, decodeWord_mul (opField_rFormat ..) (shamtField_rFormat ..) (functField_rFormat ..), rdField_rFormat,
      rsField_rFormat, rtField_rFormat]
  | beq rs rt t =>
    rw [encode, decodeWord_beq (opField_iFormat ..), branchTarget_iFormat hi, rsField_iFormat, rtField_iFormat]
  | bne rs rt t =>
    rw [encode, decodeWord_bne (opField_iFormat ..), branchTarget_iFormat hi, rsField_iFormat, rtField_iFormat]
  | j t => rw [encode, decodeWord_j (opField_jFormat ..), jumpTarget_jFormat hi]
  | lw rt off base =>
    rw [encode, decodeWord_lw (opField_iFormat ..), immOf_iFormat hi, rsField_iFormat, rtField_iFormat]
  | sw rt off base =>
    rw [encode, decodeWord_sw (opField_iFormat ..), immOf_iFormat hi, rsField_iFormat, rtField_iFormat]
  | addi rt rs imm =>
    rw [encode, decodeWord_addi (opField_iFormat ..), immOf_iFormat hi, rsField_iFormat, rtField_iFormat]

/-! ### The opcode map (30 R82) -/

theorem word_eq_of_fields {w v : Word} (hop : opField w = opField v) (hrs : rsField w = rsField v)
    (hrt : rtField w = rtField v) (hrd : rdField w = rdField v) (hsh : shamtField w = shamtField v)
    (hfn : functField w = functField v) : w = v := by
  apply BitVec.eq_of_toNat_eq
  rw [toNat_eq_fields w, toNat_eq_fields v, hop, hrs, hrt, hrd, hsh, hfn]

section
variable (w v : Word)

@[simp] theorem opField_and : opField (w &&& v) = opField w &&& opField v := BitVec.extractLsb'_and
@[simp] theorem rsField_and : rsField (w &&& v) = rsField w &&& rsField v := BitVec.extractLsb'_and
@[simp] theorem rtField_and : rtField (w &&& v) = rtField w &&& rtField v := BitVec.extractLsb'_and
@[simp] theorem rdField_and : rdField (w &&& v) = rdField w &&& rdField v := BitVec.extractLsb'_and
@[simp] theorem shamtField_and : shamtField (w &&& v) = shamtField w &&& shamtField v := BitVec.extractLsb'_and
@[simp] theorem functField_and : functField (w &&& v) = functField w &&& functField v := BitVec.extractLsb'_and

end

/-- The mask of the R-format rows keeps opcode, shamt and funct. -/
theorem and_rMask_eq_iff {w p : Word} (hp : p &&& 0xFC0007FF#32 = p) :
    w &&& 0xFC0007FF#32 = p ↔
      opField w = opField p ∧ shamtField w = shamtField p ∧ functField w = functField p := by
  have hop : opField 0xFC0007FF#32 = BitVec.allOnes 6 := by decide
  have hrs : rsField 0xFC0007FF#32 = 0#5 := by decide
  have hrt : rtField 0xFC0007FF#32 = 0#5 := by decide
  have hrd : rdField 0xFC0007FF#32 = 0#5 := by decide
  have hsh : shamtField 0xFC0007FF#32 = BitVec.allOnes 5 := by decide
  have hfn : functField 0xFC0007FF#32 = BitVec.allOnes 6 := by decide
  constructor
  · intro h
    rw [← h]
    simp only [opField_and, shamtField_and, functField_and, hop, hsh, hfn, BitVec.and_allOnes, and_self]
  · rintro ⟨h1, h2, h3⟩
    rw [← hp]
    apply word_eq_of_fields <;> simp [hop, hrs, hrt, hrd, hsh, hfn, h1, h2, h3]

/-- The mask of the other rows keeps the opcode alone. -/
theorem and_opMask_eq_iff {w p : Word} (hp : p &&& 0xFC000000#32 = p) :
    w &&& 0xFC000000#32 = p ↔ opField w = opField p := by
  have hop : opField 0xFC000000#32 = BitVec.allOnes 6 := by decide
  have hrs : rsField 0xFC000000#32 = 0#5 := by decide
  have hrt : rtField 0xFC000000#32 = 0#5 := by decide
  have hrd : rdField 0xFC000000#32 = 0#5 := by decide
  have hsh : shamtField 0xFC000000#32 = 0#5 := by decide
  have hfn : functField 0xFC000000#32 = 0#6 := by decide
  constructor
  · intro h
    rw [← h, opField_and, hop, BitVec.and_allOnes]
  · intro h
    rw [← hp]
    apply word_eq_of_fields <;> simp [hop, hrs, hrt, hrd, hsh, hfn, h]

/-- A row with the R-format mask selects a word by opcode, shamt and funct. -/
theorem selects_rRow {name : String} {p w : Word} (hp : p &&& 0xFC0007FF#32 = p) :
    (OpcodeRow.mk name 0xFC0007FF#32 p).selects w = true ↔
      opField w = opField p ∧ shamtField w = shamtField p ∧ functField w = functField p := by
  rw [OpcodeRow.selects, decide_eq_true_eq, and_rMask_eq_iff hp]

/-- Every other row selects a word by opcode. -/
theorem selects_opRow {name : String} {p w : Word} (hp : p &&& 0xFC000000#32 = p) :
    (OpcodeRow.mk name 0xFC000000#32 p).selects w = true ↔ opField w = opField p := by
  rw [OpcodeRow.selects, decide_eq_true_eq, and_opMask_eq_iff hp]

/-- A selected word decodes to an instruction of the row that selects it (30 R82). -/
theorem decodeWord_of_selects {r : OpcodeRow} (hr : r ∈ opcodeMap) {w : Word} (hsel : r.selects w = true) (k : Nat) :
    ∃ i, decodeWord w k = .ok i ∧ i.mnemonic = r.mnemonic := by
  simp only [opcodeMap, List.mem_cons, List.not_mem_nil, or_false] at hr
  rcases hr with rfl | rfl | rfl | rfl | rfl | rfl | rfl | rfl | rfl | rfl
  · obtain ⟨hop, hsh, hfn⟩ := (selects_rRow (by decide)).mp hsel
    exact ⟨_, decodeWord_add hop hsh hfn, rfl⟩
  · obtain ⟨hop, hsh, hfn⟩ := (selects_rRow (by decide)).mp hsel
    exact ⟨_, decodeWord_sub hop hsh hfn, rfl⟩
  · obtain ⟨hop, hsh, hfn⟩ := (selects_rRow (by decide)).mp hsel
    exact ⟨_, decodeWord_slt hop hsh hfn, rfl⟩
  · obtain ⟨hop, hsh, hfn⟩ := (selects_rRow (by decide)).mp hsel
    exact ⟨_, decodeWord_mul hop hsh hfn, rfl⟩
  · exact ⟨_, decodeWord_beq ((selects_opRow (by decide)).mp hsel), rfl⟩
  · exact ⟨_, decodeWord_bne ((selects_opRow (by decide)).mp hsel), rfl⟩
  · exact ⟨_, decodeWord_j ((selects_opRow (by decide)).mp hsel), rfl⟩
  · exact ⟨_, decodeWord_lw ((selects_opRow (by decide)).mp hsel), rfl⟩
  · exact ⟨_, decodeWord_sw ((selects_opRow (by decide)).mp hsel), rfl⟩
  · exact ⟨_, decodeWord_addi ((selects_opRow (by decide)).mp hsel), rfl⟩

/-- A word that no row selects fails every test of the decoder (30 R84). -/
theorem decodeWord_of_not_selected {w : Word} (hnone : ∀ r ∈ opcodeMap, r.selects w = false) (k : Nat) :
    decodeWord w k = .bad .syntaxError := by
  have hno : ∀ r ∈ opcodeMap, ¬ r.selects w = true := fun r hr => by simp [hnone r hr]
  have hR : ∀ {name p}, OpcodeRow.mk name 0xFC0007FF#32 p ∈ opcodeMap → p &&& 0xFC0007FF#32 = p →
      ¬ (opField w = opField p ∧ shamtField w = shamtField p ∧ functField w = functField p) :=
    fun hmem hp => (selects_rRow hp).not.mp (hno _ hmem)
  have hI : ∀ {name p}, OpcodeRow.mk name 0xFC000000#32 p ∈ opcodeMap → p &&& 0xFC000000#32 = p →
      opField w ≠ opField p :=
    fun hmem hp => (selects_opRow hp).not.mp (hno _ hmem)
  have hadd : ¬ (opField w = 0x00#6 ∧ shamtField w = 0#5 ∧ functField w = 0x20#6) :=
    hR (name := "add") (p := 0x00000020#32) (by simp [opcodeMap]) (by decide)
  have hsub : ¬ (opField w = 0x00#6 ∧ shamtField w = 0#5 ∧ functField w = 0x22#6) :=
    hR (name := "sub") (p := 0x00000022#32) (by simp [opcodeMap]) (by decide)
  have hslt : ¬ (opField w = 0x00#6 ∧ shamtField w = 0#5 ∧ functField w = 0x2A#6) :=
    hR (name := "slt") (p := 0x0000002A#32) (by simp [opcodeMap]) (by decide)
  have hmul : ¬ (opField w = 0x1C#6 ∧ shamtField w = 0#5 ∧ functField w = 0x02#6) :=
    hR (name := "mul") (p := 0x70000002#32) (by simp [opcodeMap]) (by decide)
  have hbeq : opField w ≠ 0x04#6 := hI (name := "beq") (p := 0x10000000#32) (by simp [opcodeMap]) (by decide)
  have hbne : opField w ≠ 0x05#6 := hI (name := "bne") (p := 0x14000000#32) (by simp [opcodeMap]) (by decide)
  have hj : opField w ≠ 0x02#6 := hI (name := "j") (p := 0x08000000#32) (by simp [opcodeMap]) (by decide)
  have hlw : opField w ≠ 0x23#6 := hI (name := "lw") (p := 0x8C000000#32) (by simp [opcodeMap]) (by decide)
  have hsw : opField w ≠ 0x2B#6 := hI (name := "sw") (p := 0xAC000000#32) (by simp [opcodeMap]) (by decide)
  have haddi : opField w ≠ 0x08#6 := hI (name := "addi") (p := 0x20000000#32) (by simp [opcodeMap]) (by decide)
  simp only [decodeWord]
  rw [if_neg hadd, if_neg hsub, if_neg hslt, if_neg hmul, if_neg hbeq, if_neg hbne, if_neg hj, if_neg hlw,
    if_neg hsw, if_neg haddi]

/-- A word that decodes to an instruction is in a row of the map. -/
theorem selected_of_decodeWord_ok {w : Word} {k : Nat} {i : Instr} (hdecode : decodeWord w k = .ok i) :
    ∃ r ∈ opcodeMap, r.selects w = true := by
  by_contra hnone
  have hbad := decodeWord_of_not_selected (w := w) (fun r hr => by simpa using fun hsel => hnone ⟨r, hr, hsel⟩) k
  cases hbad.symm.trans hdecode

/-- Settles O2: the row of the word fixes the opcode (and shamt and funct of an R-format word), and the operands are the
other fields. -/
theorem encodeInvertsDecode : Obligations.EncodeInvertsDecode := by
  unfold Obligations.EncodeInvertsDecode
  intro w k i hdecode
  obtain ⟨r, hr, hsel⟩ := selected_of_decodeWord_ok hdecode
  simp only [opcodeMap, List.mem_cons, List.not_mem_nil, or_false] at hr
  rcases hr with rfl | rfl | rfl | rfl | rfl | rfl | rfl | rfl | rfl | rfl
  · obtain ⟨hop, hsh, hfn⟩ := (selects_rRow (by decide)).mp hsel
    obtain rfl := Slot.ok.inj ((decodeWord_add hop hsh hfn).symm.trans hdecode)
    exact ⟨rfl, rfl, rFormat_of_fields hop hsh hfn⟩
  · obtain ⟨hop, hsh, hfn⟩ := (selects_rRow (by decide)).mp hsel
    obtain rfl := Slot.ok.inj ((decodeWord_sub hop hsh hfn).symm.trans hdecode)
    exact ⟨rfl, rfl, rFormat_of_fields hop hsh hfn⟩
  · obtain ⟨hop, hsh, hfn⟩ := (selects_rRow (by decide)).mp hsel
    obtain rfl := Slot.ok.inj ((decodeWord_slt hop hsh hfn).symm.trans hdecode)
    exact ⟨rfl, rfl, rFormat_of_fields hop hsh hfn⟩
  · obtain ⟨hop, hsh, hfn⟩ := (selects_rRow (by decide)).mp hsel
    obtain rfl := Slot.ok.inj ((decodeWord_mul hop hsh hfn).symm.trans hdecode)
    exact ⟨rfl, rfl, rFormat_of_fields hop hsh hfn⟩
  · have hop := (selects_opRow (by decide)).mp hsel
    obtain rfl := Slot.ok.inj ((decodeWord_beq hop).symm.trans hdecode)
    exact ⟨rfl, branchTarget_encodable w k, iFormat_branchTarget hop k⟩
  · have hop := (selects_opRow (by decide)).mp hsel
    obtain rfl := Slot.ok.inj ((decodeWord_bne hop).symm.trans hdecode)
    exact ⟨rfl, branchTarget_encodable w k, iFormat_branchTarget hop k⟩
  · have hop := (selects_opRow (by decide)).mp hsel
    obtain rfl := Slot.ok.inj ((decodeWord_j hop).symm.trans hdecode)
    exact ⟨rfl, jumpTarget_encodable w, jFormat_jumpTarget hop⟩
  · have hop := (selects_opRow (by decide)).mp hsel
    obtain rfl := Slot.ok.inj ((decodeWord_lw hop).symm.trans hdecode)
    exact ⟨inInt32_of_inInt16 (immOf_inInt16 w), immOf_inInt16 w, iFormat_immOf hop⟩
  · have hop := (selects_opRow (by decide)).mp hsel
    obtain rfl := Slot.ok.inj ((decodeWord_sw hop).symm.trans hdecode)
    exact ⟨inInt32_of_inInt16 (immOf_inInt16 w), immOf_inInt16 w, iFormat_immOf hop⟩
  · have hop := (selects_opRow (by decide)).mp hsel
    obtain rfl := Slot.ok.inj ((decodeWord_addi hop).symm.trans hdecode)
    exact ⟨inInt32_of_inInt16 (immOf_inInt16 w), immOf_inInt16 w, iFormat_immOf hop⟩

/-- The table names each mnemonic once. -/
theorem opcodeMap_mnemonic_inj : ∀ r ∈ opcodeMap, ∀ q ∈ opcodeMap, r.mnemonic = q.mnemonic → r = q := by decide

/-- Settles O3: two rows that select one word both name the mnemonic it decodes to, so they are one row. -/
theorem opcodeMapSelectsWhatTheDecoderReads : Obligations.OpcodeMapSelectsWhatTheDecoderReads := by
  unfold Obligations.OpcodeMapSelectsWhatTheDecoderReads
  intro w k
  refine ⟨fun r hr hsel => decodeWord_of_selects hr hsel k, fun hnone => decodeWord_of_not_selected hnone k, ?_⟩
  intro r hr q hq hselr hselq
  obtain ⟨i, hdecode, hri⟩ := decodeWord_of_selects hr hselr k
  obtain ⟨i', hdecode', hqi⟩ := decodeWord_of_selects hq hselq k
  obtain rfl : i = i' := Slot.ok.inj (hdecode.symm.trans hdecode')
  exact opcodeMap_mnemonic_inj r hr q hq (hri.symm.trans hqi)

/-- Settles O4: the words are fixed, and none of the ones given for every index holds a branch. -/
theorem sampleWordsDecode : Obligations.SampleWordsDecode := by
  unfold Obligations.SampleWordsDecode
  refine ⟨fun k => ⟨?_, ?_, ?_, ?_, ?_, ?_, ?_, ?_, ?_⟩, by decide, by decide⟩
  · rw [decodeWord_add (by decide) (by decide) (by decide)]; decide
  · exact decodeWord_of_not_selected (by decide) k
  · exact decodeWord_of_not_selected (by decide) k
  · rw [decodeWord_mul (by decide) (by decide) (by decide)]; decide
  · rw [decodeWord_j (by decide)]; decide
  · exact decodeWord_of_not_selected (by decide) k
  · rw [decodeWord_lw (by decide)]; decide
  · rw [decodeWord_addi (by decide)]; decide
  · exact decodeWord_of_not_selected (by decide) k

end Sys2Proof
end

section
/-! PROOFS. What the stages hand on (spec/40_pipeline_engine.md R104, R105): the instruction of a latch keeps its index,
its record and its destination through EX and MEM, and only a load gets a new result in MEM. -/

namespace Sys2Proof.Machine

/-! ### The kinds of instruction exclude each other -/

theorem isSw_of_isLw {i : Instr} (h : isLw i = true) : isSw i = false := by
  cases i
  case lw => rfl
  all_goals cases h

theorem isLw_of_transferTarget {i : Instr} {t : Target} (h : transferTarget i = some t) : isLw i = false := by
  cases i
  case beq => rfl
  case bne => rfl
  case j => rfl
  all_goals cases h

/-! ### MEM -/

/-- MEM hands the instruction on; its result is new only for a load. -/
theorem memStage_keeps {l : Latch} {m : Memory} {o : MemOut} {G : InFlight} (h : memStage l m = .ok o)
    (hG : o.latch = .full G) :
    ∃ F, l = .full F ∧ G.idx = F.idx ∧ G.ins = F.ins ∧ G.dest = F.dest ∧ (isLw F.ins = false → G.res = F.res) := by
  rcases memStage_ok h with ⟨-, rfl⟩ | ⟨F, rfl, hlw, -, rfl⟩ | ⟨F, rfl, -, -, rfl⟩ | ⟨F, rfl, -, -, rfl⟩
  · cases hG
  · obtain rfl := Latch.full.inj hG
    exact ⟨F, rfl, rfl, rfl, rfl, fun hno => absurd (hno.symm.trans hlw) (by decide)⟩
  · obtain rfl := Latch.full.inj hG
    exact ⟨F, rfl, rfl, rfl, rfl, fun _ => rfl⟩
  · obtain rfl := Latch.full.inj hG
    exact ⟨F, rfl, rfl, rfl, rfl, fun _ => rfl⟩

/-- MEM's memory and store event are those of the store in EX/MEM, if there is one (43 R202). -/
theorem memStage_store {l : Latch} {m : Memory} {o : MemOut} (h : memStage l m = .ok o) :
    o.dmem = l.storeTo m ∧ o.store = l.storeEvent := by
  rcases memStage_ok h with ⟨rfl, rfl⟩ | ⟨F, rfl, hlw, -, rfl⟩ | ⟨F, rfl, hsw, -, rfl⟩ | ⟨F, rfl, -, hsw, rfl⟩
  · exact ⟨rfl, rfl⟩
  · simp [Latch.storeTo, Latch.storeEvent, isSw_of_isLw hlw]
  · simp [Latch.storeTo, Latch.storeEvent, hsw]
  · simp [Latch.storeTo, Latch.storeEvent, hsw]

/-- MEM raises for a load or a store whose address is not valid (60 R224). -/
theorem memStage_invalid {F : InFlight} (hls : isLw F.ins = true ∨ isSw F.ins = true)
    (hbad : validAddr F.addr = false) (m : Memory) :
    memStage (.full F) m = .error ⟨.invalidAddress, F.idx⟩ := by
  cases h : memStage (.full F) m with
  | error e =>
    obtain ⟨F', hF, -, -, rfl⟩ := memStage_error h
    rw [← Latch.full.inj hF]
  | ok o =>
    rcases memStage_ok h with ⟨hF, -⟩ | ⟨F', hF, -, hv, -⟩ | ⟨F', hF, -, hv, -⟩ | ⟨F', hF, hlw, hsw, -⟩
    · cases hF
    · rw [← Latch.full.inj hF, hbad] at hv
      cases hv
    · rw [← Latch.full.inj hF, hbad] at hv
      cases hv
    · rw [← Latch.full.inj hF] at hlw hsw
      simp [hlw, hsw] at hls

/-- MEM does not raise where every access has a valid address. -/
theorem memStage_valid {l : Latch}
    (hok : ∀ F, l = .full F → (isLw F.ins = true ∨ isSw F.ins = true) → validAddr F.addr = true) (m : Memory) :
    ∃ o, memStage l m = .ok o := by
  cases h : memStage l m with
  | ok o => exact ⟨o, rfl⟩
  | error e =>
    obtain ⟨F, hF, hls, hbad, -⟩ := memStage_error h
    rw [hok F hF hls] at hbad
    cases hbad

/-! ### EX -/

/-- EX hands the instruction on. -/
theorem exStage_keeps {l : Latch} {P : Program} {o : ExOut} {G : InFlight} (h : exStage l P = .ok o)
    (hG : o.latch = .full G) : ∃ F, l = .full F ∧ G.idx = F.idx ∧ G.ins = F.ins ∧ G.dest = F.dest := by
  rcases exStage_ok h with ⟨-, rfl⟩ | ⟨F, v, rfl, -, -, -, rfl⟩ | ⟨F, rfl, -, -, rfl⟩ |
    ⟨F, t, n, b, rfl, -, -, -, -, rfl⟩
  · cases hG
  · obtain rfl := Latch.full.inj hG
    exact ⟨F, rfl, rfl, rfl, rfl⟩
  · obtain rfl := Latch.full.inj hG
    exact ⟨F, rfl, rfl, rfl, rfl⟩
  · obtain rfl := Latch.full.inj hG
    exact ⟨F, rfl, rfl, rfl, rfl⟩

/-- EX redirects only for a control transfer, to the index its target resolves to, and hands the transfer on. -/
theorem exStage_redirect {l : Latch} {P : Program} {o : ExOut} {n : Nat} (h : exStage l P = .ok o)
    (hn : o.redirect = some n) :
    ∃ F t, l = .full F ∧ transferTarget F.ins = some t ∧ resolveTarget t P = some n ∧
      o.latch = .full { F with a := 0#32, b := 0#32 } := by
  rcases exStage_ok h with ⟨-, rfl⟩ | ⟨F, v, -, -, -, -, rfl⟩ | ⟨F, -, -, -, rfl⟩ |
    ⟨F, t, n', b, rfl, -, -, ht, hres, rfl⟩
  · cases hn
  · cases hn
  · cases hn
  · cases b with
    | false => cases hn
    | true =>
      obtain rfl := Option.some.inj hn
      exact ⟨F, t, rfl, ht, hres, rfl⟩

theorem exStage_redirect_le {l : Latch} {P : Program} {o : ExOut} {n : Nat} (h : exStage l P = .ok o)
    (hn : o.redirect = some n) : n ≤ P.len := by
  obtain ⟨_, _, -, -, hres, -⟩ := exStage_redirect h hn
  exact resolveTarget_le hres

/-- EX raises for a control transfer whose target does not resolve (60 R223). -/
theorem exStage_unresolved {F : InFlight} {t : Target} {P : Program} (ht : transferTarget F.ins = some t)
    (hres : resolveTarget t P = none) : exStage (.full F) P = .error ⟨.invalidLabel, F.idx⟩ := by
  cases h : exStage (.full F) P with
  | error e =>
    obtain ⟨F', t', hF, -, -, rfl⟩ := exStage_error h
    rw [← Latch.full.inj hF]
  | ok o =>
    rcases exStage_ok h with ⟨hF, -⟩ | ⟨F', v, hF, -, -, ht', -⟩ | ⟨F', hF, -, ht', -⟩ |
      ⟨F', t', n, b, hF, -, -, ht', hres', -⟩
    · cases hF
    · rw [← Latch.full.inj hF, ht] at ht'
      cases ht'
    · rw [← Latch.full.inj hF, ht] at ht'
      cases ht'
    · rw [← Latch.full.inj hF, ht] at ht'
      obtain rfl := Option.some.inj ht'
      rw [hres] at hres'
      cases hres'

/-! ### A whole cycle and a whole turn -/

/-- A property of the state that a cycle leaves holds if it holds wherever the cycle can end: at an abort in MEM, at an
abort behind MEM, and at the commit. -/
theorem cycle_keeps {p : State → Prop} {f : Option Slot} {s : State}
    (hmemAbort : ∀ e, memStage s.exmem s.dmem = .error e → p (s.afterWb.abort e))
    (hlateAbort : ∀ m e, memStage s.exmem s.dmem = .ok m → p ((s.afterMem m).abort e))
    (hcommit : ∀ m x g, memStage s.exmem s.dmem = .ok m → exStage s.idex s.program = .ok x →
      ifStage f x.redirect (s.stallWith x) s.ifid s.pc = .ok g → p (s.committed m x g)) : p (cycle f s) := by
  rcases cycle_cases f s with ⟨e, hmem, h⟩ | ⟨m, e, hmem, -, h⟩ | ⟨m, x, e, hmem, -, -, h⟩ |
    ⟨m, x, g, hmem, hex, hif, h⟩
  · rw [h]
    exact hmemAbort e hmem
  · rw [h]
    exact hlateAbort m e hmem
  · rw [h]
    exact hlateAbort m e hmem
  · rw [h]
    exact hcommit m x g hmem hex hif

/-- A property holds after a turn if the size check, the end in Success and the clock cycle keep it. -/
theorem turn_keeps {p : State → Prop} {s : State} (hs : p s)
    (hlimit : s.status = .running → s.cycles = 0 → p (s.abort ⟨.memoryLimitExceeded, s.program.len⟩))
    (hend : s.status = .running → p s.succeed)
    (hcycle : s.status = .running → p (cycle s.slotAtPc s)) : p (turn s) := by
  rcases turn_cases s with ⟨-, h⟩ | ⟨hrun, ⟨hfirst, -⟩, h⟩ | ⟨hrun, -, -, h⟩ | ⟨⟨hrun, -, -⟩, h⟩
  · rwa [h]
  · rw [h]
    exact hlimit hrun hfirst
  · rw [h]
    exact hend hrun
  · rw [h]
    exact hcycle hrun

/-! ### The instruction store -/

theorem slotAtPc_some_lt {s : State} {sl : Slot} (h : s.slotAtPc = some sl) : s.pc < s.program.len := by
  by_contra hge
  rw [(slotAtPc_eq_none s).mpr (Nat.not_lt.mp hge)] at h
  cases h

end Sys2Proof.Machine
end

section
/-! PROOFS. The invariants that every step keeps (spec/40_pipeline_engine.md R128). -/

namespace Sys2Proof.Machine

/-! ### The structure of the pipeline (40 R128) -/

/-- The latches from ID/EX on hold instructions of the program if the latches before them did. -/
theorem State.pipelineInv.committed {s : State} {m : MemOut} {x : ExOut} {g : IfOut} (hs : s.pipelineInv)
    (hmem : memStage s.exmem s.dmem = .ok m) (hex : exStage s.idex s.program = .ok x)
    (hif : ifStage s.slotAtPc x.redirect (s.stallWith x) s.ifid s.pc = .ok g) : (s.committed m x g).pipelineInv where
  pcInRange := by
    rw [State.committed_pc, State.committed_program]
    rcases ifStage_ok hif with ⟨n, hn, rfl⟩ | ⟨-, -, rfl⟩ | ⟨-, -, i, hslot, rfl⟩ | ⟨-, -, -, rfl⟩
    · exact exStage_redirect_le hex hn
    · exact hs.pcInRange
    · exact slotAtPc_some_lt hslot
    · exact hs.pcInRange
  pcAfterIfid := by
    intro F hF
    rw [State.committed_ifid] at hF
    rw [State.committed_pc]
    rcases ifStage_ok hif with ⟨n, -, rfl⟩ | ⟨-, -, rfl⟩ | ⟨-, -, i, -, rfl⟩ | ⟨-, -, -, rfl⟩
    · cases hF
    · exact hs.pcAfterIfid F hF
    · rw [← Latch.full.inj hF]
    · cases hF
  fromIfid := by
    intro F hF
    rw [State.committed_ifid] at hF
    rcases ifStage_ok hif with ⟨n, -, rfl⟩ | ⟨-, -, rfl⟩ | ⟨-, -, i, hslot, rfl⟩ | ⟨-, -, -, rfl⟩
    · cases hF
    · exact hs.fromIfid F hF
    · rw [← Latch.full.inj hF]
      exact hslot
    · cases hF
  fromIdex := by
    intro F hF
    obtain ⟨-, -, G, hG, rfl⟩ := idStage_full hF
    obtain ⟨hidx, hins, -, -⟩ := loadOperands_keeps (fun q => fwd q x.latch m.latch s.afterWb.regs)
      { idx := G.idx, ins := G.ins, dest := destOf G.ins }
    rw [State.holds, hidx, hins]
    exact hs.fromIfid G hG
  fromExmem := by
    intro G hG
    obtain ⟨F, hF, hidx, hins, -⟩ := exStage_keeps hex hG
    rw [State.holds, hidx, hins]
    exact hs.fromIdex F hF
  fromMemwb := by
    intro G hG
    obtain ⟨F, hF, hidx, hins, -, -⟩ := memStage_keeps hmem hG
    rw [State.holds, hidx, hins]
    exact hs.fromExmem F hF

theorem State.pipelineInv.turn {s : State} (hs : s.pipelineInv) : (turn s).pipelineInv := by
  obtain ⟨hrange, hafter, hifid, hidex, hexmem, hmemwb⟩ := id hs
  apply turn_keeps hs
  · exact fun _ _ => ⟨hrange, hafter, hifid, hidex, hexmem, hmemwb⟩
  · exact fun _ => ⟨hrange, hafter, hifid, hidex, hexmem, hmemwb⟩
  · intro _
    apply cycle_keeps
    · exact fun _ _ => ⟨hrange, hafter, hifid, hidex, hexmem, hmemwb⟩
    · exact fun _ _ _ => ⟨hrange, hafter, hifid, hidex, hexmem, hmemwb⟩
    · exact fun _ _ _ hmem hex hif => hs.committed hmem hex hif

/-- Settles O50: a step is a turn. -/
theorem stepKeepsPipelineInvariant : Obligations.StepKeepsPipelineInvariant := by
  unfold Obligations.StepKeepsPipelineInvariant
  intro s t hs hstep
  obtain rfl : turn s = t := Host.Outcome.next.inj hstep
  exact hs.turn

end Sys2Proof.Machine
end

section
/-! PROOFS. The invariants that every step keeps: latch forms (spec/10_state.md R34 to R38), storage (R33, R41),
bookkeeping (R30 to R32) and register 0 (R23); and that a launched program meets them all. -/

namespace Sys2Proof.Machine

/-! ### Latch forms (10 R34 to R38) -/

/-- ID loads the operand fields of the instruction and no other (10 R36). -/
theorem loadOperands_idexForm (v : Reg → Word) (idx : Nat) (i : Instr) :
    (loadOperands v { idx := idx, ins := i, dest := destOf i }).idexForm := by
  cases i <;> rfl

/-- EX turns the listed form of ID/EX into that of EX/MEM, clearing the operands it has used (log 8). -/
theorem exStage_exmemForm {F G : InFlight} {P : Program} {x : ExOut} (hF : F.idexForm)
    (hex : exStage (.full F) P = .ok x) (hG : x.latch = .full G) : G.exmemForm := by
  obtain ⟨idx, ins, d, a, b, ad, sd, res⟩ := F
  rcases exStage_ok hex with ⟨hl, -⟩ | ⟨F, v, hl, hlw, hsw, ht, rfl⟩ | ⟨F, hl, hls, -, rfl⟩ |
    ⟨F, t, n, c, hl, -, -, ht, -, rfl⟩
  · cases hl
  · obtain rfl := Latch.full.inj hl
    obtain rfl := Latch.full.inj hG
    cases ins
    case lw => cases hlw
    case sw => cases hsw
    case beq => cases ht
    case bne => cases ht
    case j => cases ht
    all_goals simp_all [InFlight.idexForm, InFlight.exmemForm, InFlight.bare]
  · obtain rfl := Latch.full.inj hl
    obtain rfl := Latch.full.inj hG
    cases ins
    case lw => exact hF
    case sw => exact hF
    all_goals rcases hls with hlw | hsw <;> contradiction
  · obtain rfl := Latch.full.inj hl
    obtain rfl := Latch.full.inj hG
    cases ins
    case beq => simp_all [InFlight.idexForm, InFlight.exmemForm, InFlight.bare]
    case bne => simp_all [InFlight.idexForm, InFlight.exmemForm, InFlight.bare]
    case j => simp_all [InFlight.idexForm, InFlight.exmemForm, InFlight.bare]
    all_goals cases ht

/-- MEM turns the listed form of EX/MEM into that of MEM/WB, clearing the address and the store data (log 8). -/
theorem memStage_memwbForm {F G : InFlight} {m : Memory} {o : MemOut} (hF : F.exmemForm)
    (hmem : memStage (.full F) m = .ok o) (hG : o.latch = .full G) : G.memwbForm := by
  obtain ⟨idx, ins, d, a, b, ad, sd, res⟩ := F
  rcases memStage_ok hmem with ⟨hl, -⟩ | ⟨F, hl, hlw, -, rfl⟩ | ⟨F, hl, hsw, -, rfl⟩ | ⟨F, hl, hlw, hsw, rfl⟩
  · cases hl
  · obtain rfl := Latch.full.inj hl
    obtain rfl := Latch.full.inj hG
    cases ins
    case lw => simp_all [InFlight.exmemForm, InFlight.memwbForm, InFlight.bare]
    all_goals cases hlw
  · obtain rfl := Latch.full.inj hl
    obtain rfl := Latch.full.inj hG
    cases ins
    case sw => simp_all [InFlight.exmemForm, InFlight.memwbForm, InFlight.bare]
    all_goals cases hsw
  · obtain rfl := Latch.full.inj hl
    obtain rfl := Latch.full.inj hG
    cases ins
    case lw => cases hlw
    case sw => cases hsw
    all_goals exact hF

theorem State.latchForms.committed {f : Option Slot} {s : State} {m : MemOut} {x : ExOut} {g : IfOut}
    (hs : s.latchForms) (hmem : memStage s.exmem s.dmem = .ok m) (hex : exStage s.idex s.program = .ok x)
    (hif : ifStage f x.redirect (s.stallWith x) s.ifid s.pc = .ok g) : (s.committed m x g).latchForms where
  ifid := by
    intro F hF
    rw [State.committed_ifid] at hF
    rcases ifStage_ok hif with ⟨n, -, rfl⟩ | ⟨-, -, rfl⟩ | ⟨-, -, i, -, rfl⟩ | ⟨-, -, -, rfl⟩
    · cases hF
    · exact hs.ifid F hF
    · rw [← Latch.full.inj hF]
      rfl
    · cases hF
  idex := by
    intro F hF
    obtain ⟨-, -, G, -, rfl⟩ := idStage_full hF
    exact loadOperands_idexForm _ G.idx G.ins
  exmem := by
    intro G hG
    obtain ⟨F, hF, -⟩ := exStage_keeps hex hG
    rw [hF] at hex
    exact exStage_exmemForm (hs.idex F hF) hex hG
  memwb := by
    intro G hG
    obtain ⟨F, hF, -⟩ := memStage_keeps hmem hG
    rw [hF] at hmem
    exact memStage_memwbForm (hs.exmem F hF) hmem hG

/-- Settles O51: only a cycle that commits loads the latches. -/
theorem stepKeepsLatchForms : Obligations.StepKeepsLatchForms := by
  unfold Obligations.StepKeepsLatchForms
  intro s t hs hstep
  obtain rfl : turn s = t := Host.Outcome.next.inj hstep
  obtain ⟨hifid, hidex, hexmem, hmemwb⟩ := id hs
  apply turn_keeps hs
  · exact fun _ _ => ⟨hifid, hidex, hexmem, hmemwb⟩
  · exact fun _ => ⟨hifid, hidex, hexmem, hmemwb⟩
  · intro _
    apply cycle_keeps
    · exact fun _ _ => ⟨hifid, hidex, hexmem, hmemwb⟩
    · exact fun _ _ _ => ⟨hifid, hidex, hexmem, hmemwb⟩
    · exact fun _ _ _ hmem hex hif => hs.committed hmem hex hif

/-! ### Storage (10 R33, R41) -/

/-- A cycle leaves the data memory alone, or writes the word of the `sw` in EX/MEM, whose address is valid (10 R41). -/
theorem cycle_dmem_cases (f : Option Slot) (s : State) :
    (cycle f s).dmem = s.dmem ∨
    ∃ F, s.exmem = .full F ∧ isSw F.ins = true ∧ validAddr F.addr = true ∧
      (cycle f s).dmem = memWrite s.dmem F.addr F.sdata := by
  have hmemory : ∀ m, memStage s.exmem s.dmem = .ok m → m.dmem = s.dmem ∨
      ∃ F, s.exmem = .full F ∧ isSw F.ins = true ∧ validAddr F.addr = true ∧
        m.dmem = memWrite s.dmem F.addr F.sdata := by
    intro m hmem
    rcases memStage_ok hmem with ⟨-, rfl⟩ | ⟨F, -, -, -, rfl⟩ | ⟨F, hF, hsw, hv, rfl⟩ | ⟨F, -, -, -, rfl⟩
    · exact .inl rfl
    · exact .inl rfl
    · exact .inr ⟨F, hF, hsw, hv, rfl⟩
    · exact .inl rfl
  apply cycle_keeps (p := fun t => t.dmem = s.dmem ∨
    ∃ F, s.exmem = .full F ∧ isSw F.ins = true ∧ validAddr F.addr = true ∧ t.dmem = memWrite s.dmem F.addr F.sdata)
  · exact fun _ _ => .inl rfl
  · exact fun m _ hmem => hmemory m hmem
  · exact fun m _ _ hmem _ _ => hmemory m hmem

/-- A valid address lies in a word below the capacity (20 R52). -/
theorem wordIndex_lt {addr : Int} (hv : validAddr addr = true) : wordIndex addr < Config.dmemWords := by
  have hrange := of_decide_eq_true hv
  simp only [wordIndex, Config.dmemWords]
  omega

/-- WB leaves the counters alone or retires the instruction in MEM/WB (40 R103). -/
theorem State.afterWb_retired_cases (s : State) :
    s.afterWb.retired = s.retired ∨ ∃ F, s.memwb = .full F ∧ s.afterWb.retired = s.retired.bump F.idx := by
  cases h : s.memwb with
  | bubble => exact .inl (State.afterWb_bubble h).2
  | full F => exact .inr ⟨F, rfl, (State.afterWb_full h).2⟩

theorem State.afterWb_countsWf {s : State} (hs : Counts.wf s.retired) : Counts.wf s.afterWb.retired := by
  rcases s.afterWb_retired_cases with h | ⟨F, -, h⟩
  · rwa [h]
  · rw [h]
    exact Counts.bump_wf _ hs _

theorem State.storageInv.cycle {s : State} (hs : s.storageInv) (hp : s.pipelineInv) (f : Option Slot) :
    (cycle f s).storageInv where
  memWf := by
    rcases cycle_dmem_cases f s with h | ⟨F, -, -, -, h⟩
    · rw [h]
      exact hs.memWf
    · rw [h]
      exact memWrite_wf _ hs.memWf _ _
  memRange := by
    rcases cycle_dmem_cases f s with h | ⟨F, -, -, hv, h⟩
    · rw [h]
      exact hs.memRange
    · intro c hc
      rw [h] at hc
      rcases Memory.mem_setWord _ _ _ _ hc with hold | hnew
      · exact hs.memRange c hold
      · have hword := wordIndex_lt hv
        simp only [Config.dmemWords, Config.dmemBytes] at hword ⊢
        omega
  countsWf := by
    rw [cycle_retired]
    exact State.afterWb_countsWf hs.countsWf
  countsRange := by
    intro c hc
    rw [cycle_retired] at hc
    rw [cycle_program]
    rcases s.afterWb_retired_cases with h | ⟨F, hF, h⟩
    · rw [h] at hc
      exact hs.countsRange c hc
    · rw [h] at hc
      rcases mem_cellSet _ _ _ _ _ hc with ⟨rfl, -⟩ | hold
      · have hholds := hp.fromMemwb F hF
        obtain ⟨e, hstored, -⟩ := Option.map_eq_some_iff.mp hholds
        exact (List.getElem?_eq_some_iff.mp hstored).1
      · exact hs.countsRange c hold

/-- Settles O52: MEM writes inside the capacity, and WB retires an index of the program. -/
theorem stepKeepsStorageCanonical : Obligations.StepKeepsStorageCanonical := by
  unfold Obligations.StepKeepsStorageCanonical
  intro s t hp hs hstep
  obtain rfl : turn s = t := Host.Outcome.next.inj hstep
  obtain ⟨hmem, hmemRange, hcounts, hcountsRange⟩ := id hs
  apply turn_keeps hs
  · exact fun _ _ => ⟨hmem, hmemRange, hcounts, hcountsRange⟩
  · exact fun _ => ⟨hmem, hmemRange, hcounts, hcountsRange⟩
  · exact fun _ => hs.cycle hp s.slotAtPc

/-! ### Bookkeeping (10 R30 to R32, 40 R125) -/

/-- A running state whose status and err agree has no error record (10 R31). -/
theorem State.statusInv.err_eq_none {s : State} (hs : s.statusInv) (hrun : s.status = .running) : s.err = none := by
  cases herr : s.err with
  | none => rfl
  | some e =>
    simp only [State.statusInv, herr, hrun] at hs
    exact absurd hs.symm e.kind.status_ne_running

/-- An abort in a cycle leaves one record fewer than cycles. -/
theorem State.abort_bookkeeping {s : State} {e : ErrRecord} (hkind : e.kind ≠ .memoryLimitExceeded)
    (htrace : s.trace.length + 1 = s.cycles) : (s.abort e).statusInv ∧ (s.abort e).traceInv := by
  refine ⟨rfl, ?_⟩
  simp only [State.traceInv, State.abort_err, if_neg hkind]
  exact htrace

/-- The error of an aborting cycle is never the size check's. -/
theorem kind_of_cycle_eq_abort {f : Option Slot} {s u : State} {e : ErrRecord} (hrun : s.status = .running)
    (h : cycle f s = u.abort e) : e.kind ≠ .memoryLimitExceeded := by
  have hstatus := cycle_status_ne_memoryLimitExceeded f (s := s) (by rw [hrun]; decide)
  rw [h, State.abort_status] at hstatus
  intro hkind
  rw [hkind] at hstatus
  exact hstatus rfl

theorem cycle_bookkeeping {s : State} (hrun : s.status = .running) (herr : s.err = none)
    (htrace : s.trace.length = s.cycles) (f : Option Slot) : (cycle f s).statusInv ∧ (cycle f s).traceInv := by
  rcases cycle_cases f s with ⟨e, -, h⟩ | ⟨m, e, -, -, h⟩ | ⟨m, x, e, -, -, -, h⟩ | ⟨m, x, g, -, -, -, h⟩
  · rw [h]
    exact State.abort_bookkeeping (kind_of_cycle_eq_abort hrun h) (congrArg (· + 1) htrace)
  · rw [h]
    exact State.abort_bookkeeping (kind_of_cycle_eq_abort hrun h) (congrArg (· + 1) htrace)
  · rw [h]
    exact State.abort_bookkeeping (kind_of_cycle_eq_abort hrun h) (congrArg (· + 1) htrace)
  · rw [h]
    simp [State.statusInv, State.traceInv, herr, hrun, htrace]

/-- Settles O53: a running state has no error record, so its trace is as long as its cycles, and each kind of turn says
what it adds. -/
theorem stepKeepsBookkeeping : Obligations.StepKeepsBookkeeping := by
  unfold Obligations.StepKeepsBookkeeping
  intro s t hs htr hstep
  obtain rfl : turn s = t := Host.Outcome.next.inj hstep
  have hlength : s.status = .running → s.trace.length = s.cycles := by
    intro hrun
    simpa only [State.traceInv, hs.err_eq_none hrun] using htr
  apply turn_keeps (p := fun t => t.statusInv ∧ t.traceInv) ⟨hs, htr⟩
  · intro hrun hfirst
    have hempty : s.trace = [] := List.eq_nil_of_length_eq_zero ((hlength hrun).trans hfirst)
    exact ⟨rfl, hempty, hfirst⟩
  · intro hrun
    simp [State.statusInv, State.traceInv, hs.err_eq_none hrun, hlength hrun]
  · exact fun hrun => cycle_bookkeeping hrun (hs.err_eq_none hrun) (hlength hrun) s.slotAtPc

/-! ### Register 0 (10 R23) -/

/-- No write reaches entry 0 of the register file. -/
theorem writeReg_entryZero (R : Regs) (r : Reg) (v : Word) : (writeReg R r v)[0] = R[0] := by
  unfold writeReg
  split
  · rfl
  · rename_i hr
    have hne : r.toNat ≠ 0 := fun h => hr (BitVec.eq_of_toNat_eq h)
    exact Vector.getElem_set_ne _ _ hne

theorem State.regZero.afterWb {s : State} (hs : s.regZero) : s.afterWb.regZero := by
  cases h : s.memwb with
  | bubble => rwa [State.regZero, (State.afterWb_bubble h).1]
  | full F =>
    rw [State.regZero, (State.afterWb_full h).1]
    cases F.dest with
    | none => exact hs
    | some r => exact (writeReg_entryZero s.regs r F.res).trans hs

/-- Settles O54: only WB writes registers, and never entry 0. -/
theorem stepKeepsRegisterZero : Obligations.StepKeepsRegisterZero := by
  unfold Obligations.StepKeepsRegisterZero
  intro s t hs hstep
  obtain rfl : turn s = t := Host.Outcome.next.inj hstep
  apply turn_keeps hs
  · exact fun _ _ => hs
  · exact fun _ => hs
  · intro _
    rw [State.regZero, cycle_regs]
    exact hs.afterWb

/-! ### Launch (70 R250) -/

theorem State.launch_pipelineInv (P : Program) : (State.launch P).pipelineInv where
  pcInRange := Nat.zero_le _
  pcAfterIfid := fun F hF => by cases hF
  fromIfid := fun F hF => by cases hF
  fromIdex := fun F hF => by cases hF
  fromExmem := fun F hF => by cases hF
  fromMemwb := fun F hF => by cases hF

theorem State.latchForms_of_empty {s : State} (hempty : s.latchesEmpty) : s.latchForms := by
  obtain ⟨hifid, hidex, hexmem, hmemwb⟩ := hempty
  constructor
  · intro F hF
    cases hifid.symm.trans hF
  · intro F hF
    cases hidex.symm.trans hF
  · intro F hF
    cases hexmem.symm.trans hF
  · intro F hF
    cases hmemwb.symm.trans hF

/-- Settles O55: nothing is in flight, nothing is stored and nothing has been counted. -/
theorem launchMeetsTheInvariants : Obligations.LaunchMeetsTheInvariants := by
  unfold Obligations.LaunchMeetsTheInvariants
  intro P
  refine ⟨State.launch_pipelineInv P, State.latchForms_of_empty ⟨rfl, rfl, rfl, rfl⟩, ?_, .inl rfl, rfl, ?_⟩
  · exact ⟨Memory.wf_nil, nofun, Counts.wf_nil, nofun⟩
  · rw [State.regZero, State.launch_regs, Vector.getElem_replicate]

end Sys2Proof.Machine
end

section
/-! PROOFS. One instruction alone in the pipeline (spec/70_reset_and_hazards.md R258): its five cycles, what they add
up to when no stage raises, and where they stop when one does. -/

namespace Sys2Proof.Machine

/-! ### Where the instruction stands -/

/-- The instruction has been fetched from the PC of the quiet state `s`. -/
def State.atId (s : State) (i : Instr) : State :=
  { s with
    pc := s.pc + 1
    ifid := .full { idx := s.pc, ins := i }
    cycles := s.cycles + 1
    trace := s.idleRecord :: s.trace }

/-- The instruction has been decoded. -/
def State.atEx (s : State) (i : Instr) : State :=
  { s with
    pc := s.pc + 1
    idex := .full (s.decoded i)
    cycles := s.cycles + 2
    trace := s.idleRecord :: s.idleRecord :: s.trace }

/-- EX has given `x`. -/
def State.atMem (s : State) (x : ExOut) : State :=
  { s with
    pc := x.redirect.getD (s.pc + 1)
    exmem := x.latch
    cycles := s.cycles + 3
    trace := s.idleRecord :: s.idleRecord :: s.idleRecord :: s.trace }

/-- EX has given `x` and MEM has given `m`. -/
def State.atWb (s : State) (x : ExOut) (m : MemOut) : State :=
  { s with
    pc := x.redirect.getD (s.pc + 1)
    memwb := m.latch
    dmem := m.dmem
    cycles := s.cycles + 4
    trace := ⟨regView s.regs, m.store⟩ :: s.idleRecord :: s.idleRecord :: s.idleRecord :: s.trace }

/-! ### The five cycles -/

section
variable {s : State}

/-- With nothing in flight, IF reads the store and the other stages do nothing. -/
theorem cycle_fetch_alone (hempty : s.latchesEmpty) (i : Instr) : cycle (some (.ok i)) s = s.atId i := by
  obtain ⟨regs, pc, ifid, idex, exmem, memwb, dmem, status, err, cycles, retired, program, trace⟩ := s
  obtain ⟨rfl, rfl, rfl, rfl⟩ := hempty
  rfl

/-- Alone in ID, an instruction gets its sources from the register file (40 R110, R112). -/
theorem cycle_decode_alone (hempty : s.latchesEmpty) (i : Instr) : cycle none (s.atId i) = s.atEx i := by
  obtain ⟨regs, pc, ifid, idex, exmem, memwb, dmem, status, err, cycles, retired, program, trace⟩ := s
  obtain ⟨rfl, rfl, rfl, rfl⟩ := hempty
  have hsources : (fun r => fwd r .bubble .bubble regs) = readReg regs := funext fun r => fwd_file r regs
  simp only [State.atEx, State.decoded, ← hsources]
  rfl

/-- Alone in EX, an instruction moves on to EX/MEM, and the PC follows its redirect. -/
theorem cycle_execute_alone (hempty : s.latchesEmpty) {i : Instr} {x : ExOut}
    (hex : exStage (.full (s.decoded i)) s.program = .ok x) : cycle none (s.atEx i) = s.atMem x := by
  obtain ⟨regs, pc, ifid, idex, exmem, memwb, dmem, status, err, cycles, retired, program, trace⟩ := s
  obtain ⟨rfl, rfl, rfl, rfl⟩ := hempty
  obtain ⟨l, redirect⟩ := x
  refine cycle_committed (m := ⟨.bubble, dmem, none⟩) (g := ⟨.bubble, redirect.getD (pc + 1)⟩) rfl hex ?_ |>.trans ?_
  · cases redirect <;> rfl
  · cases redirect <;> rfl

/-- A transfer whose target does not resolve raises in EX (40 R124). -/
theorem cycle_execute_error_alone (hempty : s.latchesEmpty) {i : Instr} {e : ErrRecord}
    (hex : exStage (.full (s.decoded i)) s.program = .error e) :
    cycle none (s.atEx i) = { s.atEx i with cycles := s.cycles + 3, status := e.kind.status, err := some e } := by
  obtain ⟨regs, pc, ifid, idex, exmem, memwb, dmem, status, err, cycles, retired, program, trace⟩ := s
  obtain ⟨rfl, rfl, rfl, rfl⟩ := hempty
  exact cycle_exError (m := ⟨.bubble, dmem, none⟩) rfl hex

/-- Alone in MEM, an instruction moves on to MEM/WB, and its store is written and reported. -/
theorem cycle_memory_alone (hempty : s.latchesEmpty) {x : ExOut} {m : MemOut}
    (hmem : memStage x.latch s.dmem = .ok m) : cycle none (s.atMem x) = s.atWb x m := by
  obtain ⟨regs, pc, ifid, idex, exmem, memwb, dmem, status, err, cycles, retired, program, trace⟩ := s
  obtain ⟨rfl, rfl, rfl, rfl⟩ := hempty
  exact cycle_committed (x := ⟨.bubble, none⟩) (g := ⟨.bubble, x.redirect.getD (pc + 1)⟩) hmem rfl rfl

/-- A load or store whose address is not valid raises in MEM (40 R124). -/
theorem cycle_memory_error_alone (hempty : s.latchesEmpty) {x : ExOut} {e : ErrRecord}
    (hmem : memStage x.latch s.dmem = .error e) :
    cycle none (s.atMem x) = { s.atMem x with cycles := s.cycles + 4, status := e.kind.status, err := some e } := by
  obtain ⟨regs, pc, ifid, idex, exmem, memwb, dmem, status, err, cycles, retired, program, trace⟩ := s
  obtain ⟨rfl, rfl, rfl, rfl⟩ := hempty
  exact cycle_memError hmem

/-- Alone in WB, an instruction writes its result and retires. -/
theorem cycle_writeback_alone (hempty : s.latchesEmpty) {x : ExOut} {m : MemOut} {G : InFlight}
    (hG : m.latch = .full G) (hidx : G.idx = s.pc) :
    cycle none (s.atWb x m) =
      s.completed (wbStage m.latch s.regs s.retired).regs (x.redirect.getD (s.pc + 1)) m.dmem m.store := by
  obtain ⟨regs, pc, ifid, idex, exmem, memwb, dmem, status, err, cycles, retired, program, trace⟩ := s
  obtain ⟨rfl, rfl, rfl, rfl⟩ := hempty
  obtain rfl : G.idx = pc := hidx
  rw [hG]
  simp only [State.atWb, hG]
  rfl

end

/-! ### The passage -/

section
variable {s : State} {i : Instr}

/-- The first two cycles of a passage cannot raise. -/
theorem passage_to_ex (hquiet : s.quiet) (i : Instr) : passage i s = drainFor 4 (s.atEx i) := by
  obtain ⟨hrun, hempty⟩ := hquiet
  have hbusy : (s.atId i).status = .running ∧ ¬ (s.atId i).latchesEmpty := ⟨hrun, fun ⟨h, _⟩ => nomatch h⟩
  rw [passage_running hrun, cycle_fetch_alone hempty, drain, drainFor_cycle hbusy, cycle_decode_alone hempty]

theorem State.atEx_busy (hrun : s.status = .running) (i : Instr) :
    (s.atEx i).status = .running ∧ ¬ (s.atEx i).latchesEmpty :=
  ⟨hrun, fun ⟨_, h, _⟩ => nomatch h⟩

/-- The third cycle takes an instruction that EX does not refuse into EX/MEM. -/
theorem passage_to_mem {x : ExOut} (hquiet : s.quiet) (hex : exStage (.full (s.decoded i)) s.program = .ok x) :
    passage i s = drainFor 3 (s.atMem x) ∧ (s.atMem x).status = .running ∧ ¬ (s.atMem x).latchesEmpty := by
  refine ⟨?_, hquiet.1, fun ⟨_, _, hempty, _⟩ => ?_⟩
  · rw [passage_to_ex hquiet, drainFor_cycle (State.atEx_busy hquiet.1 i), cycle_execute_alone hquiet.2 hex]
  · cases (exStage_bubble_iff hex).mp hempty

/-- An unresolved target stops the passage in EX. -/
theorem passage_stops_in_ex {e : ErrRecord} (hquiet : s.quiet)
    (hex : exStage (.full (s.decoded i)) s.program = .error e) :
    passage i s = { s.atEx i with cycles := s.cycles + 3, status := e.kind.status, err := some e } := by
  rw [passage_to_ex hquiet, drainFor_cycle (State.atEx_busy hquiet.1 i), cycle_execute_error_alone hquiet.2 hex,
    drainFor_done fun ⟨hrun, _⟩ => e.kind.status_ne_running hrun]

/-- An invalid address stops the passage in MEM. -/
theorem passage_stops_in_mem {x : ExOut} {e : ErrRecord} (hquiet : s.quiet)
    (hex : exStage (.full (s.decoded i)) s.program = .ok x) (hmem : memStage x.latch s.dmem = .error e) :
    passage i s = { s.atMem x with cycles := s.cycles + 4, status := e.kind.status, err := some e } := by
  obtain ⟨hpassage, hbusy⟩ := passage_to_mem hquiet hex
  rw [hpassage, drainFor_cycle hbusy, cycle_memory_error_alone hquiet.2 hmem,
    drainFor_done fun ⟨hrun, _⟩ => e.kind.status_ne_running hrun]

/-- The instruction reaches MEM/WB with its own index. -/
theorem memwb_of_passage {x : ExOut} {m : MemOut} (hex : exStage (.full (s.decoded i)) s.program = .ok x)
    (hmem : memStage x.latch s.dmem = .ok m) : ∃ G, m.latch = .full G ∧ G.idx = s.pc := by
  cases hG : m.latch with
  | bubble => cases (exStage_bubble_iff hex).mp ((memStage_bubble_iff hmem).mp hG)
  | full G =>
    obtain ⟨F, hF, hGF, -⟩ := memStage_keeps hmem hG
    obtain ⟨D, hD, hFD, -⟩ := exStage_keeps hex hF
    refine ⟨G, rfl, ?_⟩
    rw [hGF, hFD, ← Latch.full.inj hD]
    exact (loadOperands_keeps _ _).1

/-- A passage in which no stage raises: the PC follows EX's redirect, memory and the store event are MEM's, and the
registers are WB's. -/
theorem passage_completes {x : ExOut} {m : MemOut} (hquiet : s.quiet)
    (hex : exStage (.full (s.decoded i)) s.program = .ok x) (hmem : memStage x.latch s.dmem = .ok m) :
    passage i s =
      s.completed (wbStage m.latch s.regs s.retired).regs (x.redirect.getD (s.pc + 1)) m.dmem m.store := by
  obtain ⟨hpassage, hbusy⟩ := passage_to_mem hquiet hex
  obtain ⟨G, hG, hidx⟩ := memwb_of_passage hex hmem
  have hbusyWb : (s.atWb x m).status = .running ∧ ¬ (s.atWb x m).latchesEmpty :=
    ⟨hquiet.1, fun ⟨_, _, _, h⟩ => nomatch hG.symm.trans h⟩
  rw [hpassage, drainFor_cycle hbusy, cycle_memory_alone hquiet.2 hmem, drainFor_cycle hbusyWb,
    cycle_writeback_alone hquiet.2 hG hidx]
  apply drainFor_done
  exact fun ⟨_, hfull⟩ => hfull hquiet.2

/-- The same for `exec`, with the registers that WB leaves named. -/
theorem exec_completes {x : ExOut} {m : MemOut} {R : Regs} (hquiet : s.quiet)
    (hex : exStage (.full (s.decoded i)) s.program = .ok x) (hmem : memStage x.latch s.dmem = .ok m)
    (hregs : (wbStage m.latch s.regs s.retired).regs = R) :
    exec i s = .next (s.completed R (x.redirect.getD (s.pc + 1)) m.dmem m.store) := by
  rw [exec_eq, passage_completes hquiet hex hmem, hregs]

/-- Everything a passage from a quiet state can do. -/
theorem passage_cases (hquiet : s.quiet) (i : Instr) :
    (∃ x m, exStage (.full (s.decoded i)) s.program = .ok x ∧ memStage x.latch s.dmem = .ok m ∧
      passage i s =
        s.completed (wbStage m.latch s.regs s.retired).regs (x.redirect.getD (s.pc + 1)) m.dmem m.store) ∨
    (∃ x e, exStage (.full (s.decoded i)) s.program = .ok x ∧ memStage x.latch s.dmem = .error e ∧
      passage i s = { s.atMem x with cycles := s.cycles + 4, status := e.kind.status, err := some e }) ∨
    (∃ e, exStage (.full (s.decoded i)) s.program = .error e ∧
      passage i s = { s.atEx i with cycles := s.cycles + 3, status := e.kind.status, err := some e }) := by
  cases hex : exStage (.full (s.decoded i)) s.program with
  | error e => exact .inr (.inr ⟨e, rfl, passage_stops_in_ex hquiet hex⟩)
  | ok x =>
    cases hmem : memStage x.latch s.dmem with
    | error e => exact .inr (.inl ⟨x, e, rfl, hmem, passage_stops_in_mem hquiet hex hmem⟩)
    | ok m => exact .inl ⟨x, m, rfl, hmem, passage_completes hquiet hex hmem⟩

end

/-! ### Results of the instructions (41 R161 to R165, 42 R182 to R184, 43 R201, R202) -/

/-- A write to the destination of 30 R75 is a write to the destination field: 10 R23 discards it for register 0. -/
theorem wbStage_regs_normDest {F : InFlight} {r : Reg} (hdest : F.dest = normDest r) (R : Regs) (c : Counts) :
    (wbStage (.full F) R c).regs = writeReg R r F.res := by
  unfold normDest at hdest
  by_cases hr : r = 0#5
  · rw [if_pos hr] at hdest
    simp only [wbStage, hdest, hr, writeReg_zero]
  · rw [if_neg hr] at hdest
    simp only [wbStage, hdest]

theorem wbStage_regs_none {F : InFlight} (hdest : F.dest = none) (R : Regs) (c : Counts) :
    (wbStage (.full F) R c).regs = R := by
  simp only [wbStage, hdest]

/-- MEM passes everything but loads and stores through (40 R104). -/
theorem memStage_pass {F : InFlight} (hlw : isLw F.ins = false) (hsw : isSw F.ins = false) (m : Memory) :
    memStage (.full F) m = .ok ⟨.full F, m, none⟩ := by
  obtain ⟨idx, ins, d, a, b, ad, sd, res⟩ := F
  cases ins
  case lw => cases hlw
  case sw => cases hsw
  all_goals rfl

/-- A control transfer neither stores nor writes a register (42 R180). -/
theorem isSw_destOf_of_transferTarget {i : Instr} {t : Target} (ht : transferTarget i = some t) :
    isSw i = false ∧ destOf i = none := by
  cases i
  case beq => exact ⟨rfl, rfl⟩
  case bne => exact ⟨rfl, rfl⟩
  case j => exact ⟨rfl, rfl⟩
  all_goals cases ht

theorem decoded_ins (s : State) (i : Instr) : (s.decoded i).ins = i := (loadOperands_keeps _ _).2.1

theorem decoded_dest (s : State) (i : Instr) : (s.decoded i).dest = destOf i := (loadOperands_keeps _ _).2.2.1

section
variable {s : State} {i : Instr}

/-- An instruction for which EX gives the result `v` completes with `v` in its destination field `r`. -/
theorem exec_result {r : Reg} {v : Word} (hquiet : s.quiet)
    (hex : exStage (.full (s.decoded i)) s.program = exResult (s.decoded i) v)
    (hlw : isLw i = false) (hsw : isSw i = false) (hdest : destOf i = normDest r) :
    exec i s = .next (s.completed (writeReg s.regs r v) (s.pc + 1) s.dmem none) := by
  have hins := decoded_ins s i
  have hmem := memStage_pass (F := { s.decoded i with a := 0#32, b := 0#32, res := v }) (by rw [hins]; exact hlw)
    (by rw [hins]; exact hsw) s.dmem
  refine exec_completes hquiet hex hmem ?_
  apply wbStage_regs_normDest
  exact (decoded_dest s i).trans hdest

/-- A control transfer whose target resolves to `n` completes with the PC at `n` or at the next instruction. -/
theorem exec_transfer {t : Target} {n : Nat} {taken : Bool} (hquiet : s.quiet) (ht : transferTarget i = some t)
    (hex : exStage (.full (s.decoded i)) s.program = exTransfer (s.decoded i) t taken s.program)
    (hres : resolveTarget t s.program = some n) :
    exec i s = .next (s.completed s.regs (if taken then n else s.pc + 1) s.dmem none) := by
  have hins := decoded_ins s i
  obtain ⟨hsw, hdest⟩ := isSw_destOf_of_transferTarget ht
  have hmem := memStage_pass (F := { s.decoded i with a := 0#32, b := 0#32 })
    (by rw [hins]; exact isLw_of_transferTarget ht) (by rw [hins]; exact hsw) s.dmem
  rw [exTransfer, hres] at hex
  have hregs : (wbStage (.full { s.decoded i with a := 0#32, b := 0#32 }) s.regs s.retired).regs = s.regs := by
    apply wbStage_regs_none
    exact (decoded_dest s i).trans hdest
  rw [exec_completes hquiet hex hmem hregs]
  cases taken <;> rfl

/-- A control transfer whose target does not resolve stops in EX. -/
theorem exec_unresolved {t : Target} (hquiet : s.quiet) (ht : transferTarget i = some t)
    (hres : resolveTarget t s.program = none) : exec i s = .next (s.stoppedInEx i) := by
  have hex := exStage_unresolved (F := s.decoded i) (by rw [decoded_ins, ht]) hres
  have hidx : (s.decoded i).idx = s.pc := (loadOperands_keeps _ _).1
  rw [exec_eq, passage_stops_in_ex hquiet hex, hidx]
  rfl

/-- A load or store whose address is not valid stops in MEM. -/
theorem exec_invalidAddress (hquiet : s.quiet) (hls : isLw i = true ∨ isSw i = true)
    (hex : exStage (.full (s.decoded i)) s.program = exPass (s.decoded i))
    (hbad : validAddr (s.decoded i).addr = false) : exec i s = .next (s.stoppedInMem i) := by
  have hmem := memStage_invalid (F := s.decoded i) (by rwa [decoded_ins]) hbad s.dmem
  have hidx : (s.decoded i).idx = s.pc := (loadOperands_keeps _ _).1
  rw [exec_eq, passage_stops_in_mem hquiet hex hmem, hidx]
  rfl

end

/-- Settles O7: EX adds the two operands that ID has read. -/
theorem addWritesTheSum : Obligations.AddWritesTheSum := by
  unfold Obligations.AddWritesTheSum
  intro s rd rs rt hquiet
  exact exec_result hquiet rfl rfl rfl rfl

/-- Settles O8: EX subtracts the two operands that ID has read. -/
theorem subWritesTheDifference : Obligations.SubWritesTheDifference := by
  unfold Obligations.SubWritesTheDifference
  intro s rd rs rt hquiet
  exact exec_result hquiet rfl rfl rfl rfl

/-- Settles O9: EX multiplies the two operands that ID has read. -/
theorem mulWritesTheLowProduct : Obligations.MulWritesTheLowProduct := by
  unfold Obligations.MulWritesTheLowProduct
  intro s rd rs rt hquiet
  exact exec_result hquiet rfl rfl rfl rfl

/-- Settles O10: EX compares the two operands that ID has read. -/
theorem sltWritesTheComparison : Obligations.SltWritesTheComparison := by
  unfold Obligations.SltWritesTheComparison
  intro s rd rs rt hquiet
  exact exec_result hquiet rfl rfl rfl rfl

/-- Settles O11: EX adds the immediate to the operand that ID has read. -/
theorem addiWritesTheSum : Obligations.AddiWritesTheSum := by
  unfold Obligations.AddiWritesTheSum
  intro s rt rs imm hquiet
  exact exec_result hquiet rfl rfl rfl rfl

/-- Settles O12: ID computes the address, EX passes it on, and MEM reads the word there. -/
theorem lwLoadsTheWord : Obligations.LwLoadsTheWord := by
  unfold Obligations.LwLoadsTheWord
  intro s rt base off hquiet hvalid
  have hmem : memStage (.full (s.decoded (.lw rt off base))) s.dmem =
      .ok ⟨.full { s.decoded (.lw rt off base) with
        res := memRead s.dmem (s32 (readReg s.regs base) + off), addr := 0 }, s.dmem, none⟩ := if_pos hvalid
  refine exec_completes (x := ⟨.full (s.decoded (.lw rt off base)), none⟩) hquiet rfl hmem ?_
  apply wbStage_regs_normDest
  rfl

/-- Settles O13: ID reads the address and the store data, EX passes them on, and MEM writes the word. -/
theorem swStoresTheWord : Obligations.SwStoresTheWord := by
  unfold Obligations.SwStoresTheWord
  intro s rt base off hquiet hvalid
  have hmem : memStage (.full (s.decoded (.sw rt off base))) s.dmem =
      .ok ⟨.full { s.decoded (.sw rt off base) with addr := 0, sdata := 0#32 },
        memWrite s.dmem (s32 (readReg s.regs base) + off) (readReg s.regs rt),
        some ⟨wordIndex (s32 (readReg s.regs base) + off), readReg s.regs rt⟩⟩ := if_pos hvalid
  exact exec_completes (x := ⟨.full (s.decoded (.sw rt off base)), none⟩) hquiet rfl hmem rfl

/-- Settles O14: EX takes the branch on the comparison of the two operands. -/
theorem beqTakesEqualOperands : Obligations.BeqTakesEqualOperands := by
  unfold Obligations.BeqTakesEqualOperands
  intro s rs rt t n hquiet hres
  have hex : exStage (.full (s.decoded (.beq rs rt t))) s.program =
      exTransfer (s.decoded (.beq rs rt t)) t (condBeq (readReg s.regs rs) (readReg s.regs rt)) s.program := rfl
  rw [exec_transfer hquiet rfl hex hres]
  simp only [condBeq, decide_eq_true_eq]

/-- Settles O15: EX takes the branch on the comparison of the two operands. -/
theorem bneTakesUnequalOperands : Obligations.BneTakesUnequalOperands := by
  unfold Obligations.BneTakesUnequalOperands
  intro s rs rt t n hquiet hres
  have hex : exStage (.full (s.decoded (.bne rs rt t))) s.program =
      exTransfer (s.decoded (.bne rs rt t)) t (condBne (readReg s.regs rs) (readReg s.regs rt)) s.program := rfl
  rw [exec_transfer hquiet rfl hex hres]
  simp only [condBne, decide_eq_true_eq]

/-- Settles O16: EX always takes a jump. -/
theorem jumpTakesTheTarget : Obligations.JumpTakesTheTarget := by
  unfold Obligations.JumpTakesTheTarget
  intro s t n hquiet hres
  have hex : exStage (.full (s.decoded (.j t))) s.program = exTransfer (s.decoded (.j t)) t condJ s.program := rfl
  rw [exec_transfer hquiet rfl hex hres]
  simp only [condJ, if_true]

/-! ### Errors (60 R223, R224) -/

/-- Settles O17: both accesses check the address that ID has computed. -/
theorem invalidAddressAborts : Obligations.InvalidAddressAborts := by
  unfold Obligations.InvalidAddressAborts
  intro s rt base off hquiet hbad
  exact ⟨exec_invalidAddress hquiet (.inl rfl) rfl hbad, exec_invalidAddress hquiet (.inr rfl) rfl hbad⟩

/-- Settles O18: EX resolves the target before it looks at the outcome. -/
theorem unresolvedTargetAborts : Obligations.UnresolvedTargetAborts := by
  unfold Obligations.UnresolvedTargetAborts
  intro s rs rt t hquiet hres
  exact ⟨exec_unresolved hquiet rfl hres, exec_unresolved hquiet rfl hres, exec_unresolved hquiet rfl hres⟩

end Sys2Proof.Machine
end

section
/-! PROOFS. What one instruction alone in the pipeline leaves unchanged (spec/41_arithmetic.md R160, 42_control.md R180,
43_loadstore.md R201, R202). -/

namespace Sys2Proof.Machine

/-! ### WB and the counters -/

/-- WB leaves every register but the destination of its instruction as it was (10 R24). -/
theorem readReg_wbStage_other {l : Latch} {r : Reg} (hdest : ∀ G, l = .full G → G.dest ≠ some r) (R : Regs)
    (c : Counts) : readReg (wbStage l R c).regs r = readReg R r := by
  cases l with
  | bubble => rfl
  | full G =>
    cases hG : G.dest with
    | none => rw [wbStage_regs_none hG]
    | some q =>
      have hne : r ≠ q := by
        rintro rfl
        exact hdest G rfl hG
      simp only [wbStage, hG, readReg_writeReg, hne, false_and, if_false]

theorem Counts.at_bump_other {k j : Nat} (h : j ≠ k) (c : Counts) : Counts.at (Counts.bump c k) j = Counts.at c j :=
  cellGet_cellSet_other 0 c k j _ h

theorem normDest_ne_of_ne {r q : Reg} (h : q ≠ r) : normDest r ≠ some q := by
  unfold normDest
  split
  · simp
  · simpa using h.symm

/-! ### The passage -/

section
variable {s : State} {i : Instr}

/-- What EX hands on from ID/EX is the decoded instruction itself. -/
theorem ins_of_exStage_decoded {x : ExOut} {F : InFlight} (hex : exStage (.full (s.decoded i)) s.program = .ok x)
    (hF : x.latch = .full F) : F.ins = i ∧ F.dest = destOf i := by
  obtain ⟨D, hD, -, hins, hdest⟩ := exStage_keeps hex hF
  rw [← Latch.full.inj hD] at hins hdest
  exact ⟨hins.trans (decoded_ins s i), hdest.trans (decoded_dest s i)⟩

/-- The only register a passage changes is the destination (10 R24). -/
theorem passage_reg_other (hquiet : s.quiet) {r : Reg} (hr : destOf i ≠ some r) :
    readReg (passage i s).regs r = readReg s.regs r := by
  rcases passage_cases hquiet i with ⟨x, m, hex, hmem, h⟩ | ⟨x, e, -, -, h⟩ | ⟨e, -, h⟩
  · rw [h, State.completed_regs]
    refine readReg_wbStage_other (fun G hG => ?_) s.regs s.retired
    obtain ⟨F, hF, -, -, hdest, -⟩ := memStage_keeps hmem hG
    rw [hdest, (ins_of_exStage_decoded hex hF).2]
    exact hr
  · rw [h]
    rfl
  · rw [h]
    rfl

/-- Only a `sw` changes memory in its passage (10 R41). -/
theorem passage_dmem (hquiet : s.quiet) (hsw : isSw i = false) : (passage i s).dmem = s.dmem := by
  rcases passage_cases hquiet i with ⟨x, m, hex, hmem, h⟩ | ⟨x, e, -, -, h⟩ | ⟨e, -, h⟩
  · rw [h, State.completed_dmem, (memStage_store hmem).1]
    cases hx : x.latch with
    | bubble => rfl
    | full F => simp [Latch.storeTo, (ins_of_exStage_decoded hex hx).1, hsw]
  · rw [h]
    rfl
  · rw [h]
    rfl

/-- A passage counts its own instruction and no other (10 R33). -/
theorem passage_count_other (hquiet : s.quiet) {k : Nat} (hk : k ≠ s.pc) :
    Counts.at (passage i s).retired k = Counts.at s.retired k := by
  rcases passage_cases hquiet i with ⟨x, m, -, -, h⟩ | ⟨x, e, -, -, h⟩ | ⟨e, -, h⟩
  · rw [h, State.completed_retired]
    exact Counts.at_bump_other hk s.retired
  · rw [h]
    rfl
  · rw [h]
    rfl

/-- Wherever a passage ends, IF/ID and MEM/WB are as they were. -/
theorem passage_ifid_memwb (hquiet : s.quiet) : (passage i s).ifid = s.ifid ∧ (passage i s).memwb = s.memwb := by
  rcases passage_cases hquiet i with ⟨x, m, -, -, h⟩ | ⟨x, e, -, -, h⟩ | ⟨e, -, h⟩
  · rw [h]
    exact ⟨rfl, rfl⟩
  · rw [h]
    exact ⟨rfl, rfl⟩
  · rw [h]
    exact ⟨rfl, rfl⟩

/-- Only a control transfer can stop in EX. -/
theorem passage_idex (hquiet : s.quiet) (ht : transferTarget i = none) : (passage i s).idex = s.idex := by
  rcases passage_cases hquiet i with ⟨x, m, -, -, h⟩ | ⟨x, e, -, -, h⟩ | ⟨e, hex, h⟩
  · rw [h]
    rfl
  · rw [h]
    rfl
  · obtain ⟨F, t, hF, htF, -, -⟩ := exStage_error hex
    rw [← Latch.full.inj hF, decoded_ins, ht] at htF
    cases htF

/-- Only a load or a store can stop in MEM. -/
theorem passage_exmem (hquiet : s.quiet) (hlw : isLw i = false) (hsw : isSw i = false) :
    (passage i s).exmem = s.exmem := by
  rcases passage_cases hquiet i with ⟨x, m, -, -, h⟩ | ⟨x, e, hex, hmem, h⟩ | ⟨e, -, h⟩
  · rw [h]
    rfl
  · obtain ⟨F, hF, hls, -, -⟩ := memStage_error hmem
    rw [(ins_of_exStage_decoded hex hF).1, hlw, hsw] at hls
    rcases hls with hls | hls <;> cases hls
  · rw [h]
    rfl

/-- An instruction that stops in neither stage completes, so that status and err stay. -/
theorem passage_status_err (hquiet : s.quiet) (hlw : isLw i = false) (hsw : isSw i = false)
    (ht : transferTarget i = none) : (passage i s).status = s.status ∧ (passage i s).err = s.err := by
  rcases passage_cases hquiet i with ⟨x, m, -, -, h⟩ | ⟨x, e, hex, hmem, -⟩ | ⟨e, hex, -⟩
  · rw [h]
    exact ⟨rfl, rfl⟩
  · obtain ⟨F, hF, hls, -, -⟩ := memStage_error hmem
    rw [(ins_of_exStage_decoded hex hF).1, hlw, hsw] at hls
    rcases hls with hls | hls <;> cases hls
  · obtain ⟨F, t, hF, htF, -, -⟩ := exStage_error hex
    rw [← Latch.full.inj hF, decoded_ins, ht] at htF
    cases htF

end

/-! ### The frames -/

/-- Settles O20: an arithmetic instruction can stop in no stage, and its passage writes its destination alone. -/
theorem arithmeticFrame : Obligations.ArithmeticFrame := by
  unfold Obligations.ArithmeticFrame
  intro s t i hquiet hlw hsw ht hexec
  rw [exec_eq] at hexec
  obtain rfl : passage i s = t := Host.Outcome.next.inj hexec
  obtain ⟨hstatus, herr⟩ := passage_status_err hquiet hlw hsw ht
  obtain ⟨hifid, hmemwb⟩ := passage_ifid_memwb (i := i) hquiet
  refine ⟨fun r hr => passage_reg_other hquiet hr, fun a => ?_, hstatus, herr, hifid, passage_idex hquiet ht,
    passage_exmem hquiet hlw hsw, hmemwb, passage_program i s, fun k hk => passage_count_other hquiet hk⟩
  rw [passage_dmem hquiet hsw]

/-- Settles O21: a load can stop in MEM only, and its passage writes `rt` alone. -/
theorem lwFrame : Obligations.LwFrame := by
  unfold Obligations.LwFrame
  intro s t rt base off hquiet hexec
  rw [exec_eq] at hexec
  obtain rfl : passage (.lw rt off base) s = t := Host.Outcome.next.inj hexec
  obtain ⟨hifid, hmemwb⟩ := passage_ifid_memwb (i := .lw rt off base) hquiet
  refine ⟨fun r hr => passage_reg_other hquiet (normDest_ne_of_ne hr), fun a => ?_, hifid, passage_idex hquiet rfl,
    hmemwb, passage_program _ s, fun k hk => passage_count_other hquiet hk⟩
  rw [passage_dmem hquiet rfl]

/-- Settles O22: a store whose address is valid writes the word there, and one whose address is not valid stops. -/
theorem swFrame : Obligations.SwFrame := by
  unfold Obligations.SwFrame
  intro s t rt base off hquiet hexec
  have hstored := fun hvalid => (swStoresTheWord s rt base off hquiet hvalid).symm.trans hexec
  have hstopped := fun hbad => (invalidAddressAborts s rt base off hquiet hbad).2.symm.trans hexec
  rw [exec_eq] at hexec
  obtain rfl : passage (.sw rt off base) s = t := Host.Outcome.next.inj hexec
  obtain ⟨hifid, hmemwb⟩ := passage_ifid_memwb (i := .sw rt off base) hquiet
  refine ⟨fun r => passage_reg_other hquiet nofun, fun hvalid a ha => ?_, fun hbad a => ?_, hifid,
    passage_idex hquiet rfl, hmemwb, passage_program _ s, fun k hk => passage_count_other hquiet hk⟩
  · rw [← Host.Outcome.next.inj (hstored hvalid), State.completed_dmem]
    apply Memory.byteAt_setWord_other
    have hrange := of_decide_eq_true hvalid
    simp only [effAddr] at hrange ha
    simp only [wordIndex]
    omega
  · rw [← Host.Outcome.next.inj (hstopped hbad)]
    rfl

/-- Settles O23: a control transfer can stop in EX only, and writes neither a register nor memory. -/
theorem controlFrame : Obligations.ControlFrame := by
  unfold Obligations.ControlFrame
  intro s t i tg hquiet ht hexec
  rw [exec_eq] at hexec
  obtain rfl : passage i s = t := Host.Outcome.next.inj hexec
  obtain ⟨hifid, hmemwb⟩ := passage_ifid_memwb (i := i) hquiet
  obtain ⟨hsw, hdest⟩ := isSw_destOf_of_transferTarget ht
  refine ⟨fun r => passage_reg_other hquiet (by rw [hdest]; nofun), fun a => ?_, hifid,
    passage_exmem hquiet (isLw_of_transferTarget ht) hsw, hmemwb, passage_program i s,
    fun k hk => passage_count_other hquiet hk⟩
  rw [passage_dmem hquiet hsw]

end Sys2Proof.Machine
end

section
/-! PROOFS. Registers, the data memory, and what changes them (spec/10_state.md R23, R24, R41, R46; spec/20_memory.md
R58, R59); target resolution (spec/42_control.md R181). -/

namespace Sys2Proof.Machine

/-- Settles O24: the read, the write and the destination of 30 R75 each single out register 0. -/
theorem registerZeroIsHardwired : Obligations.RegisterZeroIsHardwired := by
  unfold Obligations.RegisterZeroIsHardwired
  refine ⟨fun R => ⟨readReg_zero R, ?_⟩, writeReg_zero, fun rs rt off => ⟨rfl, rfl, rfl, rfl, rfl, rfl⟩, ?_⟩
  · rw [regView, Vector.getElem_ofFn]
    exact readReg_zero R
  · intro F hdest
    refine ⟨fun r => by simp [hdest], fun l => ?_⟩
    by_contra hstall
    obtain ⟨_, G, r, -, hG, -, hr, -⟩ := (loadUse_iff l (.full F)).mp (by simpa using hstall)
    rw [← Latch.full.inj hG, hdest] at hr
    cases hr

/-! ### A word read after a word write -/

/-- Each byte of a written word reads as its part of the value (log 1). -/
theorem Memory.byteAt_setWord {m : Memory} (hm : Memory.wf m) (w : Nat) (v : Word) :
    Memory.byteAt (Memory.setWord m w v) (4 * w) = v.extractLsb' 0 8 ∧
    Memory.byteAt (Memory.setWord m w v) (4 * w + 1) = v.extractLsb' 8 8 ∧
    Memory.byteAt (Memory.setWord m w v) (4 * w + 2) = v.extractLsb' 16 8 ∧
    Memory.byteAt (Memory.setWord m w v) (4 * w + 3) = v.extractLsb' 24 8 := by
  have h0 := Memory.setByte_wf m hm (4 * w) (v.extractLsb' 0 8)
  have h1 := Memory.setByte_wf _ h0 (4 * w + 1) (v.extractLsb' 8 8)
  have h2 := Memory.setByte_wf _ h1 (4 * w + 2) (v.extractLsb' 16 8)
  simp only [Memory.setWord, Memory.byteAt_setByte _ h2, Memory.byteAt_setByte _ h1, Memory.byteAt_setByte _ h0,
    Memory.byteAt_setByte _ hm]
  simp

/-- The four bytes put together again are the value. -/
theorem Memory.word_setWord_same {m : Memory} (hm : Memory.wf m) (w : Nat) (v : Word) :
    Memory.word (Memory.setWord m w v) w = v := by
  obtain ⟨h0, h1, h2, h3⟩ := Memory.byteAt_setWord hm w v
  have hv := v.isLt
  rw [Memory.word, h0, h1, h2, h3]
  apply BitVec.eq_of_toNat_eq
  simp only [toNat_append_eq_add, toNat_extractLsb']
  omega

theorem Memory.word_setWord_other {m : Memory} {w u : Nat} (h : u ≠ w) (v : Word) :
    Memory.word (Memory.setWord m w v) u = Memory.word m u := by
  unfold Memory.word
  rw [Memory.byteAt_setWord_other m w v _ (by omega), Memory.byteAt_setWord_other m w v _ (by omega),
    Memory.byteAt_setWord_other m w v _ (by omega), Memory.byteAt_setWord_other m w v _ (by omega)]

/-- Two valid addresses name the same word exactly when they are the same (20 R52). -/
theorem wordIndex_inj {a b : Int} (ha : validAddr a = true) (hb : validAddr b = true) (h : wordIndex b = wordIndex a) :
    b = a := by
  have hrangeA := of_decide_eq_true ha
  have hrangeB := of_decide_eq_true hb
  simp only [wordIndex] at h
  omega

/-- Settles O25: two valid addresses share a word only if they are the same. -/
theorem memReadAfterMemWrite : Obligations.MemReadAfterMemWrite := by
  unfold Obligations.MemReadAfterMemWrite
  intro m a b v hm ha hb
  unfold memRead memWrite
  by_cases h : b = a
  · rw [if_pos h, h, Memory.word_setWord_same hm]
  · rw [if_neg h, Memory.word_setWord_other fun hw => h (wordIndex_inj ha hb hw)]

/-! ### The footer -/

theorem mem_footerWords {m : Memory} {l : List Nat} {e : Nat × Nat × Word} :
    e ∈ footerWords m l ↔ ∃ w ∈ l, m.word w ≠ 0#32 ∧ e = (4 * w, 4 * w + 3, m.word w) := by
  induction l with
  | nil => simp [footerWords]
  | cons w l ih =>
    by_cases hw : m.word w = 0#32
    · simp [footerWords, hw, ih]
    · simp [footerWords, hw, ih]

theorem footerWords_pairwise {m : Memory} {l : List Nat} (hl : l.Pairwise (· < ·)) :
    (footerWords m l).Pairwise (fun x y => x.1 < y.1) := by
  induction l with
  | nil => exact List.Pairwise.nil
  | cons w l ih =>
    obtain ⟨hw, hl'⟩ := List.pairwise_cons.mp hl
    unfold footerWords
    split
    · exact ih hl'
    · refine List.pairwise_cons.mpr ⟨fun e he => ?_, ih hl'⟩
      obtain ⟨u, hu, -, rfl⟩ := mem_footerWords.mp he
      have := hw u hu
      simp only
      omega

/-- A key that a table does not list reads as the default. -/
theorem cellGet_of_not_listed {α : Type} {d : α} {m : List (Nat × α)} {a : Nat} (h : ∀ c ∈ m, c.1 ≠ a) :
    cellGet d m a = d := by
  induction m with
  | nil => rfl
  | cons c t ih =>
    have hc : a ≠ c.1 := (h c (by simp)).symm
    simp only [cellGet, hc, if_false]
    exact ih fun c' hc' => h c' (by simp [hc'])

/-- A word none of whose bytes is listed is 0. -/
theorem Memory.word_of_not_listed {m : Memory} {w : Nat} (h : ∀ c ∈ m, c.1 / 4 ≠ w) : m.word w = 0#32 := by
  have hbyte : ∀ a, a / 4 = w → m.byteAt a = Memory.unlisted := by
    rintro a rfl
    exact cellGet_of_not_listed fun c hc hca => h c hc (by rw [hca])
  rw [Memory.word, hbyte (4 * w) (by omega), hbyte (4 * w + 1) (by omega), hbyte (4 * w + 2) (by omega),
    hbyte (4 * w + 3) (by omega)]
  rfl

/-- The candidate words of a canonical memory rise. -/
theorem footer_candidates_rise {m : Memory} (hm : Memory.wf m) :
    ((m.map (fun c => c.1 / 4)).dedup).Pairwise (· < ·) := by
  have hle : (m.map (fun c => c.1 / 4)).Pairwise (· ≤ ·) :=
    List.pairwise_map.mpr (hm.1.imp fun h => Nat.div_le_div_right h.le)
  have hne : ((m.map (fun c => c.1 / 4)).dedup).Pairwise (· ≠ ·) := List.nodup_dedup _
  exact ((hle.sublist (List.dedup_sublist _)).and hne).imp fun ⟨h, h'⟩ => lt_of_le_of_ne h h'

/-- Settles O26: a word that is not 0 has a listed byte, and so is among the candidates. -/
theorem footerListsTheNonZeroWords : Obligations.FooterListsTheNonZeroWords := by
  unfold Obligations.FooterListsTheNonZeroWords
  refine fun s => ⟨fun a b v => ?_, fun hm => footerWords_pairwise (footer_candidates_rise hm)⟩
  rw [State.footer, mem_footerWords]
  constructor
  · rintro ⟨w, -, hw, he⟩
    simp only [Prod.mk.injEq] at he
    obtain ⟨rfl, rfl, rfl⟩ := he
    exact ⟨w, rfl, rfl, rfl, hw⟩
  · rintro ⟨w, rfl, rfl, rfl, hw⟩
    have hlisted : ∃ c ∈ s.dmem, c.1 / 4 = w := by
      by_contra hnone
      exact hw (Memory.word_of_not_listed fun c hc hcw => hnone ⟨c, hc, hcw⟩)
    exact ⟨w, List.mem_dedup.mpr (List.mem_map.mpr hlisted), hw, rfl⟩

/-! ### What changes registers and memory -/

/-- Settles O27: a cycle leaves the registers that WB leaves, and no other turn writes registers. -/
theorem onlyWritebackWritesRegisters : Obligations.OnlyWritebackWritesRegisters := by
  unfold Obligations.OnlyWritebackWritesRegisters
  intro s t hstep r
  obtain rfl : turn s = t := Host.Outcome.next.inj hstep
  apply turn_keeps (p := fun t => readReg t.regs r ≠ readReg s.regs r →
    ∃ F, s.memwb = .full F ∧ F.dest = some r ∧ readReg t.regs r = F.res)
  · exact fun h => absurd rfl h
  · exact fun _ _ h => absurd rfl h
  · exact fun _ h => absurd rfl h
  · intro _ hchanged
    rw [cycle_regs] at hchanged ⊢
    cases hl : s.memwb with
    | bubble => exact absurd (by rw [(State.afterWb_bubble hl).1]) hchanged
    | full F =>
      rw [(State.afterWb_full hl).1] at hchanged ⊢
      cases hdest : F.dest with
      | none => simp [hdest] at hchanged
      | some q =>
        simp only [hdest, readReg_writeReg] at hchanged ⊢
        split at hchanged
        · rename_i h
          exact ⟨F, rfl, by rw [hdest, h.1], if_pos h⟩
        · exact absurd rfl hchanged

/-- Settles O28: only MEM's store writes memory, and only the bytes of its word. -/
theorem onlyStoresInMemWriteMemory : Obligations.OnlyStoresInMemWriteMemory := by
  unfold Obligations.OnlyStoresInMemWriteMemory
  intro s t hstep a
  obtain rfl : turn s = t := Host.Outcome.next.inj hstep
  apply turn_keeps (p := fun t => Memory.byteAt t.dmem a ≠ Memory.byteAt s.dmem a →
    ∃ F, s.exmem = .full F ∧ isSw F.ins = true ∧ validAddr F.addr = true ∧ a / 4 = wordIndex F.addr)
  · exact fun h => absurd rfl h
  · exact fun _ _ h => absurd rfl h
  · exact fun _ h => absurd rfl h
  · intro _ hchanged
    rcases cycle_dmem_cases s.slotAtPc s with h | ⟨F, hF, hsw, hvalid, h⟩
    · exact absurd (by rw [h]) hchanged
    · refine ⟨F, hF, hsw, hvalid, ?_⟩
      by_contra hother
      exact hchanged (by rw [h]; exact Memory.byteAt_setWord_other _ _ _ _ hother)

/-! ### Targets -/

/-- Settles O19: the range check is made on the index itself, whether it was given or looked up. -/
theorem targetResolution : Obligations.TargetResolution := by
  unfold Obligations.TargetResolution
  intro P n
  refine ⟨fun k => ?_, fun k hk => ?_, fun name hname => ?_, fun name hname => ?_, fun name hname => ?_⟩
  · simp only [resolveTarget, targetIndex]
    split
    · rw [Option.some.injEq]
      omega
    · simp only [reduceCtorEq, false_iff]
      omega
  · simp only [resolveTarget, targetIndex]
    exact if_neg (by omega)
  · simp [resolveTarget, targetIndex, labelOf, hname]
  · simp [resolveTarget, targetIndex, labelOf, hname]
  · simp [resolveTarget, targetIndex, labelOf, hname]

end Sys2Proof.Machine
end

section
/-! PROOFS. The step, the signals of a cycle and what they do (spec/40_pipeline_engine.md sections 1 to 7). -/

namespace Sys2Proof.Machine

/-! ### Step and exec (40 R100, R123) -/

theorem turn_clocked {s : State} (h : s.clocked) : turn s = cycle s.slotAtPc s := by
  obtain ⟨hrun, hfits, hbusy⟩ := h
  rw [turn, if_neg (not_not_intro hrun), if_neg hfits, if_neg hbusy]

/-- Settles O5: a running core that is neither oversize nor drained takes a clock cycle. -/
theorem stepRunsTheFetchedInstruction : Obligations.StepRunsTheFetchedInstruction := by
  unfold Obligations.StepRunsTheFetchedInstruction
  refine ⟨fun s w hw => ?_, fun s sl hsl => ?_, fun s i hclocked hslot => ⟨?_, ?_⟩⟩
  · rw [State.slotAtPc, hw]
    rfl
  · rw [State.slotAtPc, hsl]
    rfl
  · rw [step_eq, turn_clocked hclocked, hslot]
  · rw [exec_eq, passage_running hclocked.1]

theorem getElem?_putEntry (store : List Entry) (k : Nat) (e : Entry) : (putEntry store k e)[k]? = some e := by
  induction k generalizing store with
  | zero => cases store <;> rfl
  | succ k ih =>
    cases store with
    | nil => exact ih []
    | cons h t => exact ih t

/-- Settles O6: the placed word makes the core clocked, with an empty pipeline. -/
theorem storedWordIsFetchedNext : Obligations.StoredWordIsFetchedNext := by
  unfold Obligations.StoredWordIsFetchedNext
  intro s w i hdecode hfits
  have hword : BitVec.ofNat 32 (w % 2 ^ 32) = BitVec.ofNat 32 w := by
    apply BitVec.eq_of_toNat_eq
    simp
  have hslot : (s.withFetchWord 32 w).slotAtPc = some (.ok i) := by
    have hstored : (s.withFetchWord 32 w).program.store[s.pc]? = some (tableEntry 32 w) := getElem?_putEntry _ _ _
    rw [State.slotAtPc, State.withFetchWord_pc, hstored, tableEntry, hword]
    exact congrArg some hdecode
  have hbusy : ¬ (s.withFetchWord 32 w).drained :=
    fun ⟨hend, _⟩ => absurd (slotAtPc_some_lt hslot) (Nat.not_lt.mpr hend)
  refine ⟨(s.withFetchWord 32 w).atId i, ?_, rfl, rfl, rfl, rfl, rfl⟩
  rw [step_eq, turn_clocked ⟨State.withFetchWord_status s 32 w, hfits, hbusy⟩, hslot,
    cycle_fetch_alone ⟨rfl, rfl, rfl, rfl⟩]

/-- Settles O46: every turn and every passage first asks whether the core runs. -/
theorem terminatedCoreStays : Obligations.TerminatedCoreStays := by
  unfold Obligations.TerminatedCoreStays
  refine ⟨rfl, fun st => by cases st <;> decide, fun s hstop => ⟨?_, fun i => ?_, turns_terminated hstop⟩⟩
  · rw [step_eq, turn_terminated hstop]
  · rw [exec_eq, passage, if_neg hstop]

/-- Settles O49: each field is the reset value, and no stage has anything to raise or redirect. -/
theorem resetValues : Obligations.ResetValues := by
  unfold Obligations.ResetValues
  refine ⟨rfl, fun P => ⟨rfl, rfl, rfl, rfl, rfl, rfl, fun w => Memory.word_of_not_listed nofun, rfl, fun hover => ?_,
    rfl, rfl, fun k => rfl, rfl, rfl⟩⟩
  rw [turn_oversize (State.launch_status P) ⟨State.launch_cycles P, hover⟩]
  rfl

/-! ### The trace (10 R45, R46) -/

/-- A cycle puts the same records in front of any trace, and reads none. -/
theorem cycle_trace (f : Option Slot) (s : State) (l : List TraceRecord) :
    ∃ new, (cycle f s).trace = new ++ s.trace ∧
      cycle f { s with trace := l } = { cycle f s with trace := new ++ l } := by
  rcases cycle_cases f s with ⟨e, hmem, h⟩ | ⟨m, e, hmem, hex, h⟩ | ⟨m, x, e, hmem, hex, hif, h⟩ |
    ⟨m, x, g, hmem, hex, hif, h⟩
  · refine ⟨[], by rw [h]; rfl, ?_⟩
    rw [h, cycle_memError (s := { s with trace := l }) hmem]
    rfl
  · refine ⟨[], by rw [h]; rfl, ?_⟩
    rw [h, cycle_exError (s := { s with trace := l }) hmem hex]
    rfl
  · refine ⟨[], by rw [h]; rfl, ?_⟩
    rw [h, cycle_ifError (s := { s with trace := l }) hmem hex hif]
    rfl
  · refine ⟨[⟨regView s.afterWb.regs, m.store⟩], by rw [h]; rfl, ?_⟩
    rw [h, cycle_committed (s := { s with trace := l }) hmem hex hif]
    rfl

/-- Settles O56: no test of the run loop looks at the trace either. -/
theorem traceIsNeverRead : Obligations.TraceIsNeverRead := by
  unfold Obligations.TraceIsNeverRead
  intro s l
  rcases turn_cases s with ⟨hstop, h⟩ | ⟨hrun, hsize, h⟩ | ⟨hrun, hfits, hdrained, h⟩ | ⟨hclocked, h⟩
  · exact ⟨[], by rw [h]; rfl, by rw [h, turn_terminated (s := { s with trace := l }) hstop]; rfl⟩
  · exact ⟨[], by rw [h]; rfl, by rw [h, turn_oversize (s := { s with trace := l }) hrun hsize]; rfl⟩
  · exact ⟨[], by rw [h]; rfl, by rw [h, turn_drained (s := { s with trace := l }) hrun hfits hdrained]; rfl⟩
  · obtain ⟨new, htrace, hcycle⟩ := cycle_trace s.slotAtPc s l
    refine ⟨new, by rw [h, ← htrace], ?_⟩
    rw [h, turn_clocked (s := { s with trace := l }) hclocked]
    exact hcycle

/-! ### Redirect and stall (40 R108, R117 to R119) -/

theorem exNow_of_redirectNow {s : State} {n : Nat} (h : s.redirectNow = some n) :
    ∃ x, s.exNow = some x ∧ x.redirect = some n := by
  cases hx : s.exNow with
  | none => simp [State.redirectNow, hx] at h
  | some x => exact ⟨x, rfl, (redirectNow_eq hx).symm.trans h⟩

theorem exNow_of_stallNow {s : State} (h : s.stallNow = true) :
    ∃ x, s.exNow = some x ∧ s.stallWith x = true := by
  cases hx : s.exNow with
  | none => simp [State.stallNow, hx] at h
  | some x => exact ⟨x, rfl, (stallNow_eq hx).symm.trans h⟩

/-- On a redirect the cycle commits, whatever the store answers (40 R117, R118). -/
theorem cycle_redirect {s : State} {n : Nat} (h : s.redirectNow = some n) :
    ∃ m x, memStage s.exmem s.dmem = .ok m ∧ exStage s.idex s.program = .ok x ∧ x.redirect = some n ∧
      ∀ f, cycle f s = s.committed m x ⟨.bubble, n⟩ := by
  obtain ⟨x, hx, hn⟩ := exNow_of_redirectNow h
  obtain ⟨m, hmem, hex⟩ := exNow_eq_some.mp hx
  refine ⟨m, x, hmem, hex, hn, fun f => cycle_committed hmem hex ?_⟩
  rw [hn, ifStage_redirect]

/-- On a stall the cycle commits, whatever the store answers (40 R113). -/
theorem cycle_stall {s : State} (h : s.stallNow = true) :
    ∃ m x, memStage s.exmem s.dmem = .ok m ∧ exStage s.idex s.program = .ok x ∧ x.redirect = none ∧
      s.stallWith x = true ∧ ∀ f, cycle f s = s.committed m x ⟨s.ifid, s.pc⟩ := by
  obtain ⟨x, hx, hstall⟩ := exNow_of_stallNow h
  obtain ⟨m, hmem, hex⟩ := exNow_eq_some.mp hx
  have hn := ((State.stallWith_iff s x).mp hstall).1
  refine ⟨m, x, hmem, hex, hn, hstall, fun f => cycle_committed hmem hex ?_⟩
  rw [hn, hstall, ifStage_stall]

/-- IF reads nothing under an older error, a redirect or a stall (40 R119, R124). -/
theorem cycle_unread {s : State} (h : s.exNow = none ∨ s.redirectNow ≠ none ∨ s.stallNow = true) (f : Option Slot) :
    cycle f s = cycle none s := by
  rcases h with hnone | hredirect | hstall
  · cases hmem : memStage s.exmem s.dmem with
    | error e => rw [cycle_memError hmem, cycle_memError hmem]
    | ok m =>
      cases hex : exStage s.idex s.program with
      | error e => rw [cycle_exError hmem hex, cycle_exError hmem hex]
      | ok x => cases (exNow_eq_some.mpr ⟨m, hmem, hex⟩).symm.trans hnone
  · obtain ⟨n, hn⟩ := Option.ne_none_iff_exists'.mp hredirect
    obtain ⟨m, x, -, -, -, hcycle⟩ := cycle_redirect hn
    rw [hcycle, hcycle]
  · obtain ⟨m, x, -, -, -, -, hcycle⟩ := cycle_stall hstall
    rw [hcycle, hcycle]

/-- Settles O33: IF raises for a slot that it reads, and reads none under an older error, a redirect or a stall. -/
theorem badSlotRaisesOnlyWhenRead : Obligations.BadSlotRaisesOnlyWhenRead := by
  unfold Obligations.BadSlotRaisesOnlyWhenRead
  intro s k
  refine ⟨fun x hx hredirect hstall => ?_, fun h => cycle_unread h _⟩
  obtain ⟨m, hmem, hex⟩ := exNow_eq_some.mp hx
  rw [redirectNow_eq hx] at hredirect
  rw [stallNow_eq hx] at hstall
  have hif : ifStage (some (.bad k)) x.redirect (s.stallWith x) s.ifid s.pc = .error ⟨badErr k, s.pc⟩ := by
    rw [hredirect, hstall, ifStage_bad]
  rw [cycle_ifError hmem hex hif]
  exact ⟨rfl, rfl⟩

/-- Settles O36: IF and ID give way to the redirect, and EX hands the transfer on. -/
theorem redirectFlushes : Obligations.RedirectFlushes := by
  unfold Obligations.RedirectFlushes
  intro f s n h
  obtain ⟨m, x, -, hex, hn, hcycle⟩ := cycle_redirect h
  obtain ⟨F, t, hF, -, -, hlatch⟩ := exStage_redirect hex hn
  rw [hcycle f, hcycle none]
  refine ⟨rfl, ?_, rfl, rfl, rfl, F, _, hF, hlatch, rfl, rfl⟩
  rw [State.committed_idex, hn, idStage_redirect]

/-- Settles O38: the bubble that the stall puts into ID/EX leaves nothing in EX to depend on. -/
theorem stallHoldsForOneCycle : Obligations.StallHoldsForOneCycle := by
  unfold Obligations.StallHoldsForOneCycle
  intro f s h
  obtain ⟨m, x, -, hex, hn, hstall, hcycle⟩ := cycle_stall h
  have hidex : (s.committed m x ⟨s.ifid, s.pc⟩).idex = .bubble := by
    rw [State.committed_idex, hn, hstall, idStage_stall]
  obtain ⟨-, F, G, r, -, hlatch, hlw, -, -⟩ :=
    And.imp_right (loadUse_iff _ _).mp ((State.stallWith_iff s x).mp hstall)
  rw [hcycle f, hcycle none]
  refine ⟨hidex, rfl, rfl, rfl, ?_, rfl, ?_⟩
  · rw [State.committed_exmem, hlatch, idex_of_exStage_lw hex hlatch hlw]
  · by_contra hagain
    obtain ⟨y, hy, hstall'⟩ := exNow_of_stallNow (by simpa using hagain)
    obtain ⟨m', -, hex'⟩ := exNow_eq_some.mp hy
    rw [hidex, exStage_bubble] at hex'
    rw [← Except.ok.inj hex'] at hstall'
    simp [State.stallWith] at hstall'

/-- Settles O39: what redirects is a control transfer, and what causes a load-use dependency is a `lw`. -/
theorem redirectAndLoadUseExclude : Obligations.RedirectAndLoadUseExclude := by
  unfold Obligations.RedirectAndLoadUseExclude
  intro s x hx hredirect
  obtain ⟨m, -, hex⟩ := exNow_eq_some.mp hx
  obtain ⟨n, hn⟩ := Option.ne_none_iff_exists'.mp hredirect
  obtain ⟨F, t, -, ht, -, hlatch⟩ := exStage_redirect hex hn
  by_contra huse
  obtain ⟨_, G, r, -, hG, hlw, -, -⟩ := (loadUse_iff _ _).mp (by simpa using huse)
  obtain rfl := Latch.full.inj (hlatch.symm.trans hG)
  cases (isLw_of_transferTarget ht).symm.trans hlw

/-- A transfer that EX accepts redirects exactly when it is taken, to the index its target resolves to (42 R181). -/
theorem exTransfer_redirect_iff {F : InFlight} {t : Target} {taken : Bool} {P : Program} {x : ExOut} {n : Nat}
    (h : exTransfer F t taken P = .ok x) :
    x.redirect = some n ↔ taken = true ∧ resolveTarget t P = some n := by
  unfold exTransfer at h
  split at h
  · cases h
  · rename_i k hk
    rw [← Except.ok.inj h, hk]
    cases taken <;> simp

/-- Settles O35: the other seven instructions put out no redirect. -/
theorem redirectExactlyWhenTaken : Obligations.RedirectExactlyWhenTaken := by
  unfold Obligations.RedirectExactlyWhenTaken
  intro s x n hx
  obtain ⟨m, -, hex⟩ := exNow_eq_some.mp hx
  rw [redirectNow_eq hx]
  cases hl : s.idex with
  | bubble =>
    rw [hl] at hex
    rw [← Except.ok.inj hex]
    simp
  | full F =>
    obtain ⟨idx, ins, d, a, b, ad, sd, res⟩ := F
    rw [hl] at hex
    cases ins
    case beq rs rt t =>
      rw [exTransfer_redirect_iff hex]
      simp [condBeq]
    case bne rs rt t =>
      rw [exTransfer_redirect_iff hex]
      simp [condBne]
    case j t =>
      rw [exTransfer_redirect_iff hex]
      simp [condJ]
    all_goals
      rw [← Except.ok.inj hex]
      simp

/-! ### The PC (10 R27) -/

/-- The PC after a cycle that commits with redirect `r` and stall `b`, in the priority of 40 R119. -/
def State.pcAfter (s : State) (r : Option Nat) (b : Bool) : Nat :=
  match r with
  | some n => n
  | none => if b = true then s.pc else if s.pc < s.program.len then s.pc + 1 else s.pc

theorem ifStage_pc {s : State} {r : Option Nat} {b : Bool} {g : IfOut}
    (hif : ifStage s.slotAtPc r b s.ifid s.pc = .ok g) : g.pc = s.pcAfter r b := by
  rcases ifStage_ok hif with ⟨n, rfl, rfl⟩ | ⟨rfl, rfl, rfl⟩ | ⟨rfl, rfl, i, hslot, rfl⟩ | ⟨rfl, rfl, hslot, rfl⟩
  · rfl
  · rfl
  · simp [State.pcAfter, slotAtPc_some_lt hslot]
  · simp [State.pcAfter, (slotAtPc_eq_none s).mp hslot]

/-- A cycle that does not abort commits (40 R120). -/
theorem cycle_commits {f : Option Slot} {s : State} (hrun : (cycle f s).status = .running) :
    ∃ m x g, memStage s.exmem s.dmem = .ok m ∧ exStage s.idex s.program = .ok x ∧
      ifStage f x.redirect (s.stallWith x) s.ifid s.pc = .ok g ∧ cycle f s = s.committed m x g := by
  rcases cycle_cases f s with ⟨e, -, h⟩ | ⟨m, e, -, -, h⟩ | ⟨m, x, e, -, -, -, h⟩ | hcommit
  · rw [h] at hrun
    exact absurd hrun e.kind.status_ne_running
  · rw [h] at hrun
    exact absurd hrun e.kind.status_ne_running
  · rw [h] at hrun
    exact absurd hrun e.kind.status_ne_running
  · exact hcommit

theorem cycle_pc {s : State} (hrun : (cycle s.slotAtPc s).status = .running) :
    (cycle s.slotAtPc s).pc = s.pcAfter s.redirectNow s.stallNow := by
  obtain ⟨m, x, g, hmem, hex, hif, h⟩ := cycle_commits hrun
  have hx := exNow_eq_some.mpr ⟨m, hmem, hex⟩
  rw [h, State.committed_pc, redirectNow_eq hx, stallNow_eq hx, ifStage_pc hif]

theorem badErr_ne_invalidAddress (k : BadKind) : badErr k ≠ .invalidAddress := by
  cases k <;> decide

/-- An aborting cycle stops in a state that WB, or WB and MEM, have left (40 R124). -/
theorem cycle_aborts {f : Option Slot} {s : State} (hrun : s.status = .running)
    (hstop : (cycle f s).status ≠ .running) :
    (∃ e, memStage s.exmem s.dmem = .error e ∧ cycle f s = s.afterWb.abort e) ∨
    (∃ m e, memStage s.exmem s.dmem = .ok m ∧ e.kind ≠ .invalidAddress ∧ cycle f s = (s.afterMem m).abort e) := by
  rcases cycle_cases f s with ⟨e, hmem, h⟩ | ⟨m, e, hmem, hex, h⟩ | ⟨m, x, e, hmem, -, hif, h⟩ | ⟨m, x, g, -, -, -, h⟩
  · exact .inl ⟨e, hmem, h⟩
  · obtain ⟨F, t, -, -, -, rfl⟩ := exStage_error hex
    exact .inr ⟨m, ⟨.invalidLabel, F.idx⟩, hmem, nofun, h⟩
  · obtain ⟨-, -, k, -, rfl⟩ := ifStage_error hif
    exact .inr ⟨m, ⟨badErr k, s.pc⟩, hmem, badErr_ne_invalidAddress k, h⟩
  · rw [h, State.committed_status] at hstop
    exact absurd hrun hstop

/-- Settles O30: IF chooses the PC of a cycle that commits, and an abort or a turn without a cycle keeps it. -/
theorem pcTakesOneOfThreeValues : Obligations.PcTakesOneOfThreeValues := by
  unfold Obligations.PcTakesOneOfThreeValues
  intro s t hstep
  obtain rfl : turn s = t := Host.Outcome.next.inj hstep
  refine ⟨fun hclocked hrun => ?_, fun hclocked hstop => ?_, fun hidle => ?_⟩
  · rw [turn_clocked hclocked] at hrun ⊢
    exact cycle_pc hrun
  · rw [turn_clocked hclocked] at hstop ⊢
    rcases cycle_aborts hclocked.1 hstop with ⟨e, -, h⟩ | ⟨m, e, -, -, h⟩
    · rw [h]
      rfl
    · rw [h]
      rfl
  · rcases turn_cases s with ⟨-, h⟩ | ⟨-, -, h⟩ | ⟨-, -, -, h⟩ | ⟨hclocked, -⟩
    · rw [h]
    · rw [h, State.abort_pc]
    · rw [h, State.succeed_pc]
    · exact absurd hclocked hidle

/-! ### Forwarding priority (40 R110) -/

theorem Latch.forwards_of_dest {l : Latch} {r : Reg} {G : InFlight} (hl : l = .full G) (hdest : G.dest = some r) :
    l.forwards r = some G.res := by
  rw [hl, Latch.forwards_full, if_pos hdest]

theorem Latch.forwards_eq_none {l : Latch} {r : Reg} (h : ∀ G, l = .full G → G.dest ≠ some r) :
    l.forwards r = none := by
  cases l with
  | bubble => rfl
  | full G => rw [Latch.forwards_full, if_neg (h G rfl)]

theorem fwd_ex {r : Reg} (hr : r ≠ 0#5) {x : Latch} {v : Word} (hx : x.forwards r = some v) (m : Latch) (R : Regs) :
    fwd r x m R = v := by
  simp only [fwd, if_neg hr, hx]

theorem fwd_mem {r : Reg} (hr : r ≠ 0#5) {x m : Latch} {v : Word} (hx : x.forwards r = none)
    (hm : m.forwards r = some v) (R : Regs) : fwd r x m R = v := by
  simp only [fwd, if_neg hr, hx, hm]

theorem fwd_regs {r : Reg} (hr : r ≠ 0#5) {x m : Latch} (hx : x.forwards r = none) (hm : m.forwards r = none)
    (R : Regs) : fwd r x m R = readReg R r := by
  simp only [fwd, if_neg hr, hx, hm]

/-- Settles O40: what a latch forwards decides at which of the three sources the multiplexer stops. -/
theorem forwardingPriority : Obligations.ForwardingPriority := by
  unfold Obligations.ForwardingPriority
  refine fun r x m R => ⟨fwd_zero x m R, fun hr => ⟨fun G hG hdest => ?_, fun hx =>
    ⟨fun H hH hdest => ?_, fun hm => ?_⟩⟩⟩
  · exact fwd_ex hr (Latch.forwards_of_dest hG hdest) m R
  · exact fwd_mem hr (Latch.forwards_eq_none hx) (Latch.forwards_of_dest hH hdest) R
  · exact fwd_regs hr (Latch.forwards_eq_none hx) (Latch.forwards_eq_none hm) R

/-! ### Trace records and aborts (40 R124, R125) -/

/-- Settles O42: only the commit adds a record, and MEM's store event is that of the store in EX/MEM. -/
theorem oneTraceRecordPerCompletedCycle : Obligations.OneTraceRecordPerCompletedCycle := by
  unfold Obligations.OneTraceRecordPerCompletedCycle
  intro f s hrun
  refine ⟨fun hgoes => ?_, fun hstop => ?_⟩
  · obtain ⟨m, x, g, hmem, -, -, h⟩ := cycle_commits hgoes
    rw [h, State.committed_trace, State.committed_regs, (memStage_store hmem).2]
  · rcases cycle_aborts hrun hstop with ⟨e, -, h⟩ | ⟨m, e, -, -, h⟩
    · rw [h]
      rfl
    · rw [h]
      rfl

/-- Settles O44: only MEM raises InvalidAddress, and it raises before it stores. -/
theorem abortKeepsLatchesAndPc : Obligations.AbortKeepsLatchesAndPc := by
  unfold Obligations.AbortKeepsLatchesAndPc
  intro f s hrun hstop
  rcases cycle_aborts hrun hstop with ⟨e, hmem, h⟩ | ⟨m, e, hmem, hkind, h⟩
  · obtain ⟨F, -, -, -, rfl⟩ := memStage_error hmem
    rw [h]
    exact ⟨rfl, rfl, rfl, rfl, rfl, rfl, rfl, rfl, ⟨_, rfl, rfl⟩, fun _ => rfl, fun hne => absurd rfl hne⟩
  · rw [h]
    refine ⟨rfl, rfl, rfl, rfl, rfl, rfl, rfl, rfl, ⟨e, rfl, rfl⟩, fun hstatus => ?_, fun _ => (memStage_store hmem).1⟩
    rw [State.abort_status] at hstatus
    cases hk : e.kind
    case invalidAddress => exact absurd hk hkind
    all_goals rw [hk] at hstatus; cases hstatus

/-- Settles O45: a stage behind the one that raises does not act in the cycle. -/
theorem oldestErrorIsReported : Obligations.OldestErrorIsReported := by
  unfold Obligations.OldestErrorIsReported
  intro f s
  refine ⟨fun F hF hls hbad => ?_, fun G t hok hG ht hres => ?_⟩
  · have hmem : memStage s.exmem s.dmem = .error ⟨.invalidAddress, F.idx⟩ := by
      rw [hF, memStage_invalid hls hbad]
    rw [cycle_memError hmem]
    exact ⟨rfl, rfl⟩
  · obtain ⟨m, hmem⟩ := memStage_valid hok s.dmem
    have hex : exStage s.idex s.program = .error ⟨.invalidLabel, G.idx⟩ := by
      rw [hG, exStage_unresolved ht hres]
    rw [cycle_exError hmem hex]
    exact ⟨rfl, rfl⟩

end Sys2Proof.Machine
end

section
/-! PROOFS. The pipeline against one-at-a-time execution (spec/40_pipeline_engine.md R111, R127). What is in flight has
an outcome: the storage it leaves when each stage takes it on in program order, with nothing beside it. This part says
what the stages do to one instruction alone, and that forwarding gives ID the operands of that order. -/

namespace Sys2Proof.Machine

/-! ### Completing what is in flight -/

/-- The state that instructions work on, without the PC. -/
structure Storage where
  regs : Regs
  dmem : Memory
  retired : Counts

/-- One-at-a-time execution's view of the storage at program index `pc`. -/
def Storage.at (d : Storage) (pc : Nat) : Arch := ⟨d.regs, pc, d.dmem, d.retired⟩

/-- WB of latch `l`, alone. -/
def Storage.wb (d : Storage) (l : Latch) : Storage :=
  ⟨(wbStage l d.regs d.retired).regs, d.dmem, (wbStage l d.regs d.retired).retired⟩

/-- MEM and WB of latch `l`, alone. -/
def Storage.mem (d : Storage) (l : Latch) : Except ErrRecord Storage :=
  (memStage l d.dmem).bind fun m => .ok (Storage.wb { d with dmem := m.dmem } m.latch)

/-- EX, MEM and WB of latch `l`, alone, and EX's redirect. -/
def Storage.ex (d : Storage) (P : Program) (l : Latch) : Except ErrRecord (Storage × Option Nat) :=
  (exStage l P).bind fun x => (d.mem x.latch).bind fun d' => .ok (d', x.redirect)

/-- The operand record that ID makes of instruction `i` at index `pc`, its sources from the register file (40 R112). -/
def Storage.decoded (d : Storage) (pc : Nat) (i : Instr) : InFlight :=
  loadOperands (readReg d.regs) { idx := pc, ins := i, dest := destOf i }

/-- ID, EX, MEM and WB of latch `l`, alone. -/
def Storage.id (d : Storage) (P : Program) (l : Latch) : Except ErrRecord (Storage × Option Nat) :=
  match l with
  | .bubble => .ok (d, none)
  | .full F => d.ex P (.full (d.decoded F.idx F.ins))

/-- The storage of a state. -/
def State.storage (s : State) : Storage := ⟨s.regs, s.dmem, s.retired⟩

/-- What is in MEM/WB and EX/MEM completes. -/
def State.older (s : State) : Except ErrRecord Storage := (s.storage.wb s.memwb).mem s.exmem

/-- The instruction in IF/ID completes, unless the one in EX has redirected (40 R118). -/
def Storage.follow (P : Program) (l : Latch) (o : Storage × Option Nat) : Except ErrRecord (Storage × Option Nat) :=
  match o.2 with
  | some n => .ok (o.1, some n)
  | none => o.1.id P l

/-- Everything in flight completes; the redirect, if there is one, is that of ID/EX or of IF/ID. -/
def State.outcome (s : State) : Except ErrRecord (Storage × Option Nat) :=
  s.older.bind fun d => (d.ex s.program s.idex).bind (Storage.follow s.program s.ifid)

/-- Where one-at-a-time execution stands once everything in flight has completed. -/
def State.flushed (s : State) : Except ErrRecord Arch := s.outcome.map fun o => o.1.at (o.2.getD s.pc)

/-- With nothing in flight the outcome is the state's own storage. -/
theorem State.flushed_of_empty {s : State} (hempty : s.latchesEmpty) : s.flushed = .ok s.arch := by
  obtain ⟨hifid, hidex, hexmem, hmemwb⟩ := hempty
  simp only [State.flushed, State.outcome, State.older, hifid, hidex, hexmem, hmemwb]
  rfl

/-! ### Stages alone and the architectural effect (41 R161 to R165, 42 R182 to R184, 43 R201, R202) -/

/-- The passage of `i` at index `pc` through the stages, alone, as one-at-a-time execution sees it. -/
def Storage.effect (d : Storage) (P : Program) (pc : Nat) (i : Instr) : Except ErrRecord Arch :=
  (d.id P (.full { idx := pc, ins := i })).map fun o => o.1.at (o.2.getD (pc + 1))

section
variable {P : Program} {t : Target}

theorem Arch.transfer_unresolved (hres : resolveTarget t P = none) (a : Arch) (taken : Bool) :
    a.transfer P t taken = .error ⟨.invalidLabel, a.pc⟩ := by
  rw [Arch.transfer, hres]

theorem Arch.transfer_resolved {n : Nat} (hres : resolveTarget t P = some n) (a : Arch) (taken : Bool) :
    a.transfer P t taken = .ok (a.goto (if taken then n else a.pc + 1)) := by
  rw [Arch.transfer, hres]

end

section
variable {s : State}

/-- From a quiet state, `exec i` completes with the architectural effect of `i`, or ends the run with its error: the
results of the ten instructions put together. -/
theorem exec_archEffect_cases (hquiet : s.quiet) (i : Instr) :
    (∃ R pc m st, archEffect s.program i s.arch = .ok ⟨R, pc, m, s.retired.bump s.pc⟩ ∧
      exec i s = .next (s.completed R pc m st)) ∨
    (∃ e t, archEffect s.program i s.arch = .error e ∧ exec i s = .next t ∧ t.status = e.kind.status ∧
      t.err = some e ∧ t.regs = s.regs ∧ t.dmem = s.dmem ∧ t.retired = s.retired) := by
  cases i with
  | add rd rs rt => exact .inl ⟨_, _, _, _, rfl, addWritesTheSum s rd rs rt hquiet⟩
  | sub rd rs rt => exact .inl ⟨_, _, _, _, rfl, subWritesTheDifference s rd rs rt hquiet⟩
  | slt rd rs rt => exact .inl ⟨_, _, _, _, rfl, sltWritesTheComparison s rd rs rt hquiet⟩
  | mul rd rs rt => exact .inl ⟨_, _, _, _, rfl, mulWritesTheLowProduct s rd rs rt hquiet⟩
  | addi rt rs imm => exact .inl ⟨_, _, _, _, rfl, addiWritesTheSum s rt rs imm hquiet⟩
  | beq rs rt t =>
    cases hres : resolveTarget t s.program with
    | none =>
      exact .inr ⟨_, _, Arch.transfer_unresolved hres s.arch _,
        (unresolvedTargetAborts s rs rt t hquiet hres).1, rfl, rfl, rfl, rfl, rfl⟩
    | some n =>
      refine .inl ⟨_, _, _, _, ?_, beqTakesEqualOperands s rs rt t n hquiet hres⟩
      simp only [archEffect, Arch.transfer_resolved hres, decide_eq_true_eq]
      rfl
  | bne rs rt t =>
    cases hres : resolveTarget t s.program with
    | none =>
      exact .inr ⟨_, _, Arch.transfer_unresolved hres s.arch _,
        (unresolvedTargetAborts s rs rt t hquiet hres).2.1, rfl, rfl, rfl, rfl, rfl⟩
    | some n =>
      refine .inl ⟨_, _, _, _, ?_, bneTakesUnequalOperands s rs rt t n hquiet hres⟩
      simp only [archEffect, Arch.transfer_resolved hres, decide_eq_true_eq]
      rfl
  | j t =>
    cases hres : resolveTarget t s.program with
    | none =>
      exact .inr ⟨_, _, Arch.transfer_unresolved hres s.arch _,
        (unresolvedTargetAborts s 0 0 t hquiet hres).2.2, rfl, rfl, rfl, rfl, rfl⟩
    | some n =>
      refine .inl ⟨_, _, _, _, ?_, jumpTakesTheTarget s t n hquiet hres⟩
      exact Arch.transfer_resolved hres s.arch true
  | lw rt off base =>
    cases hvalid : validAddr (s32 (readReg s.regs base) + off) with
    | true => exact .inl ⟨_, _, _, _, if_pos hvalid, lwLoadsTheWord s rt base off hquiet hvalid⟩
    | false =>
      exact .inr ⟨_, _, if_neg (ne_true_of_eq_false hvalid),
        (invalidAddressAborts s rt base off hquiet hvalid).1, rfl, rfl, rfl, rfl, rfl⟩
  | sw rt off base =>
    cases hvalid : validAddr (s32 (readReg s.regs base) + off) with
    | true => exact .inl ⟨_, _, _, _, if_pos hvalid, swStoresTheWord s rt base off hquiet hvalid⟩
    | false =>
      exact .inr ⟨_, _, if_neg (ne_true_of_eq_false hvalid),
        (invalidAddressAborts s rt base off hquiet hvalid).2, rfl, rfl, rfl, rfl, rfl⟩

/-- Settles O58: the effect or the error of the instruction, whichever it has, fixes how its passage ends. -/
theorem execHasTheArchitecturalEffect : Obligations.ExecHasTheArchitecturalEffect := by
  unfold Obligations.ExecHasTheArchitecturalEffect
  intro s i hquiet
  rcases exec_archEffect_cases hquiet i with ⟨R, pc, m, st, harch, hexec⟩ | ⟨e, t, harch, hexec, h⟩
  · refine ⟨fun a ha => ⟨_, hexec, hquiet, ?_⟩, fun e he => ?_⟩
    · rw [← Except.ok.inj (harch.symm.trans ha)]
      rfl
    · cases harch.symm.trans he
  · refine ⟨fun a ha => ?_, fun e' he => ⟨t, hexec, ?_⟩⟩
    · cases harch.symm.trans ha
    · rw [← Except.error.inj (harch.symm.trans he)]
      exact h

/-- The same passage told by its stages. -/
theorem exec_effect_cases (hquiet : s.quiet) (i : Instr) :
    (∃ R pc m st, s.storage.effect s.program s.pc i = .ok ⟨R, pc, m, s.retired.bump s.pc⟩ ∧
      exec i s = .next (s.completed R pc m st)) ∨
    (∃ e t, s.storage.effect s.program s.pc i = .error e ∧ exec i s = .next t ∧ t.status = e.kind.status ∧
      t.err = some e) := by
  rw [exec_eq]
  have heffect : s.storage.effect s.program s.pc i =
      (s.storage.ex s.program (.full (s.decoded i))).map fun o => o.1.at (o.2.getD (s.pc + 1)) := rfl
  rw [heffect, Storage.ex]
  rcases passage_cases hquiet i with ⟨x, m, hex, hmem, h⟩ | ⟨x, e, hex, hmem, h⟩ | ⟨e, hex, h⟩
  · obtain ⟨G, hG, hidx⟩ := memwb_of_passage hex hmem
    have hmem' : memStage x.latch s.storage.dmem = .ok m := hmem
    refine .inl ⟨_, _, _, _, ?_, by rw [h]⟩
    simp only [hex, Storage.mem, hmem', Except.bind, Except.map, hG, ← hidx]
    rfl
  · have hmem' : memStage x.latch s.storage.dmem = .error e := hmem
    refine .inr ⟨e, _, ?_, by rw [h], rfl, rfl⟩
    rw [hex, Except.bind, Storage.mem, hmem']
    rfl
  · refine .inr ⟨e, _, ?_, by rw [h], rfl, rfl⟩
    rw [hex]
    rfl

/-- The two tellings agree where a passage starts from a quiet state. -/
theorem archEffect_eq_effect_of_quiet (hquiet : s.quiet) (i : Instr) :
    archEffect s.program i s.arch = s.storage.effect s.program s.pc i := by
  rcases exec_archEffect_cases hquiet i with ⟨R, pc, m, st, harch, hexec⟩ | ⟨e, t, harch, hexec, hstatus, herr, -⟩
  · rcases exec_effect_cases hquiet i with ⟨R', pc', m', st', heffect, hexec'⟩ | ⟨e, t, -, hexec', hstatus, -⟩
    · have heq := Host.Outcome.next.inj (hexec.symm.trans hexec')
      have hR : R = R' := congrArg State.regs heq
      have hpc : pc = pc' := congrArg State.pc heq
      have hm : m = m' := congrArg State.dmem heq
      rw [harch, heffect, hR, hpc, hm]
    · rw [← Host.Outcome.next.inj (hexec.symm.trans hexec')] at hstatus
      exact absurd (hstatus.symm.trans hquiet.1) e.kind.status_ne_running
  · rcases exec_effect_cases hquiet i with ⟨R', pc', m', st', -, hexec'⟩ | ⟨e', t', heffect, hexec', -, herr'⟩
    · rw [Host.Outcome.next.inj (hexec.symm.trans hexec')] at hstatus
      exact absurd (hstatus.symm.trans hquiet.1) e.kind.status_ne_running
    · rw [← Host.Outcome.next.inj (hexec.symm.trans hexec'), herr] at herr'
      rw [harch, heffect, Option.some.inj herr']

end

/-- The stages, one instruction alone in them, do what one-at-a-time execution does (40 R127): every storage and index
are those of some quiet state. -/
theorem archEffect_eq_effect (P : Program) (i : Instr) (d : Storage) (pc : Nat) :
    archEffect P i (d.at pc) = d.effect P pc i :=
  archEffect_eq_effect_of_quiet
    (s := { State.launch P with regs := d.regs, pc := pc, dmem := d.dmem, retired := d.retired })
    ⟨rfl, rfl, rfl, rfl, rfl⟩ i

/-! ### Forwarding (40 R111) -/

/-- WB of a latch leaves the forwarded value in the register it forwards for. -/
theorem readReg_wb_of_forwards {l : Latch} {r : Reg} {v : Word} (hr : r ≠ 0#5) (h : l.forwards r = some v)
    (d : Storage) : readReg (d.wb l).regs r = v := by
  cases l with
  | bubble => cases h
  | full G =>
    rw [Latch.forwards_full] at h
    split at h
    · rename_i hdest
      obtain rfl := Option.some.inj h
      simp [Storage.wb, wbStage, hdest, readReg_writeReg, hr]
    · cases h

theorem readReg_wb_of_not_forwards {l : Latch} {r : Reg} (h : l.forwards r = none) (d : Storage) :
    readReg (d.wb l).regs r = readReg d.regs r := by
  refine readReg_wbStage_other (fun G hG hdest => ?_) d.regs d.retired
  rw [Latch.forwards_of_dest hG hdest] at h
  cases h

/-- MEM does not change what a latch forwards for `r`, unless it loads `r`. -/
theorem memStage_forwards {l : Latch} {m : Memory} {o : MemOut} {r : Reg} (h : memStage l m = .ok o)
    (hno : ∀ G, l = .full G → isLw G.ins = true → G.dest ≠ some r) : o.latch.forwards r = l.forwards r := by
  cases hl : o.latch with
  | bubble => rw [(memStage_bubble_iff h).mp hl]
  | full G =>
    obtain ⟨F, rfl, -, -, hdest, hres⟩ := memStage_keeps h hl
    rw [Latch.forwards_full, Latch.forwards_full, hdest]
    cases hlw : isLw F.ins with
    | true => rw [if_neg (hno F rfl hlw), if_neg (hno F rfl hlw)]
    | false => rw [hres hlw]

/-- The multiplexer delivers what the register holds once MEM/WB and EX/MEM have completed (40 R110, R111). -/
theorem fwd_eq_readReg {x m : Latch} {d d' : Storage} {r : Reg}
    (hno : ∀ G, x = .full G → isLw G.ins = true → G.dest ≠ some r) (hmem : (d.wb m).mem x = .ok d') :
    fwd r x m d.regs = readReg d'.regs r := by
  by_cases hr : r = 0#5
  · rw [hr, fwd_zero, readReg_zero]
  cases ho : memStage x (d.wb m).dmem with
  | error e =>
    rw [Storage.mem, ho] at hmem
    cases hmem
  | ok o =>
    rw [Storage.mem, ho] at hmem
    obtain rfl := Except.ok.inj hmem
    have hforwards := memStage_forwards ho hno
    cases hx : x.forwards r with
    | some v =>
      rw [fwd_ex hr hx, readReg_wb_of_forwards hr (hforwards.trans hx)]
    | none =>
      rw [readReg_wb_of_not_forwards (hforwards.trans hx)]
      cases hm : m.forwards r with
      | some v => rw [fwd_mem hr hx hm]; exact (readReg_wb_of_forwards hr hm d).symm
      | none => rw [fwd_regs hr hx hm]; exact (readReg_wb_of_not_forwards hm d).symm

/-- ID's operands depend only on the values of the source registers (30 R75). -/
theorem loadOperands_congr {v w : Reg → Word} {F : InFlight} (h : ∀ r ∈ srcsOf F.ins, v r = w r) :
    loadOperands v F = loadOperands w F := by
  obtain ⟨idx, ins, d, a, b, ad, sd, res⟩ := F
  cases ins <;> simp_all [srcsOf, loadOperands]

/-- Where the hazard unit does not stall, ID decodes as if the older instructions had completed. -/
theorem idDecode_eq_decoded {F : InFlight} {x m : Latch} {d d' : Storage} (huse : loadUse (.full F) x = false)
    (hmem : (d.wb m).mem x = .ok d') : idDecode F x m d.regs = .full (d'.decoded F.idx F.ins) := by
  refine congrArg Latch.full (loadOperands_congr fun r hr => fwd_eq_readReg (fun G hG hlw hdest => ?_) hmem)
  rw [(loadUse_iff _ _).mpr ⟨F, G, r, rfl, hG, hlw, hdest, hr⟩] at huse
  cases huse

end Sys2Proof.Machine
end

section
/-! PROOFS. A cycle and the outcome of what is in flight (spec/40_pipeline_engine.md R111, R127). A cycle that commits
keeps the outcome, or adds to it the architectural effect of the instruction it fetches; draining reaches it. -/

namespace Sys2Proof.Machine

/-! ### A cycle that commits -/

/-- A bubble in IF/ID adds nothing to the outcome. -/
@[simp] theorem Storage.follow_bubble (P : Program) (o : Storage × Option Nat) :
    Storage.follow P .bubble o = .ok o := by
  obtain ⟨d, r⟩ := o
  cases r <;> rfl

section
variable {s : State} {m : MemOut} {x : ExOut}

theorem older_committed (s : State) (m : MemOut) (x : ExOut) (g : IfOut) :
    (s.committed m x g).older = ((s.committed m x g).storage.wb m.latch).mem x.latch := rfl

/-- What follows the instruction in EX completes behind it; the older ones are those that the cycle has taken one stage
further. -/
theorem outcome_eq (hmem : memStage s.exmem s.dmem = .ok m) (hex : exStage s.idex s.program = .ok x) (g : IfOut) :
    s.outcome = (s.committed m x g).older.bind fun d => Storage.follow s.program s.ifid (d, x.redirect) := by
  have holder : s.older = .ok ((s.committed m x g).storage.wb m.latch) := by
    have hdmem : memStage s.exmem (s.storage.wb s.memwb).dmem = .ok m := hmem
    rw [State.older, Storage.mem, hdmem]
    rfl
  rw [State.outcome, holder, older_committed]
  simp only [Except.bind, Storage.ex, hex]
  cases ((s.committed m x g).storage.wb m.latch).mem x.latch <;> rfl

/-- With no redirect and no stall, ID decodes IF/ID as if the older instructions had completed, so the outcome is that
of the state before and what IF has put into IF/ID. -/
theorem outcome_committed (hmem : memStage s.exmem s.dmem = .ok m) (hex : exStage s.idex s.program = .ok x)
    (hredirect : x.redirect = none) (hstall : s.stallWith x = false) (g : IfOut) :
    (s.committed m x g).outcome = s.outcome.bind (Storage.follow s.program g.ifid) := by
  rw [outcome_eq hmem hex g, State.outcome, State.committed_program, State.committed_ifid]
  cases holder : (s.committed m x g).older with
  | error e => rfl
  | ok d =>
    have hid : d.ex s.program (s.committed m x g).idex = Storage.follow s.program s.ifid (d, x.redirect) := by
      rw [State.committed_idex, hredirect, hstall]
      cases hifid : s.ifid with
      | bubble => rfl
      | full F =>
        have huse : loadUse (.full F) x.latch = false := by
          rw [State.stallWith, hredirect, hifid] at hstall
          exact hstall
        have hdecode : idDecode F x.latch m.latch s.afterWb.regs = .full (d.decoded F.idx F.ins) :=
          idDecode_eq_decoded (d := (s.committed m x g).storage) huse holder
        rw [idStage_decode, hdecode]
        rfl
    simp only [Except.bind, hid]

theorem flushed_committed_redirect {n : Nat} (hmem : memStage s.exmem s.dmem = .ok m)
    (hex : exStage s.idex s.program = .ok x) (hn : x.redirect = some n) :
    (s.committed m x ⟨.bubble, n⟩).flushed = s.flushed := by
  rw [State.flushed, State.flushed, outcome_eq hmem hex ⟨.bubble, n⟩, State.outcome, State.committed_idex, hn,
    idStage_redirect]
  cases (s.committed m x ⟨.bubble, n⟩).older <;> rfl

theorem flushed_committed_stall (hmem : memStage s.exmem s.dmem = .ok m) (hex : exStage s.idex s.program = .ok x)
    (hredirect : x.redirect = none) (hstall : s.stallWith x = true) :
    (s.committed m x ⟨s.ifid, s.pc⟩).flushed = s.flushed := by
  rw [State.flushed, State.flushed, outcome_eq hmem hex ⟨s.ifid, s.pc⟩, State.outcome, State.committed_idex, hredirect,
    hstall, idStage_stall]
  cases (s.committed m x ⟨s.ifid, s.pc⟩).older <;> rfl

theorem flushed_committed_nothing (hmem : memStage s.exmem s.dmem = .ok m) (hex : exStage s.idex s.program = .ok x)
    (hredirect : x.redirect = none) (hstall : s.stallWith x = false) :
    (s.committed m x ⟨.bubble, s.pc⟩).flushed = s.flushed := by
  rw [State.flushed, State.flushed, outcome_committed hmem hex hredirect hstall]
  cases s.outcome with
  | error e => rfl
  | ok o => simp [Except.bind, Except.map]

/-- The fetched instruction acts on the outcome of the older ones, unless the one in IF/ID redirects. -/
def Storage.thenExecute (P : Program) (pc : Nat) (i : Instr) (o : Storage × Option Nat) : Except ErrRecord Arch :=
  match o.2 with
  | some n => .ok (o.1.at n)
  | none => archEffect P i (o.1.at pc)

theorem flushed_committed_fetch (hmem : memStage s.exmem s.dmem = .ok m) (hex : exStage s.idex s.program = .ok x)
    (hredirect : x.redirect = none) (hstall : s.stallWith x = false) (i : Instr) :
    (s.committed m x ⟨.full { idx := s.pc, ins := i }, s.pc + 1⟩).flushed =
      s.outcome.bind (Storage.thenExecute s.program s.pc i) := by
  rw [State.flushed, outcome_committed hmem hex hredirect hstall]
  cases s.outcome with
  | error e => rfl
  | ok o =>
    obtain ⟨d, r⟩ := o
    cases r with
    | some n => rfl
    | none => exact (archEffect_eq_effect s.program i d s.pc).symm

end

/-- Everything a cycle that does not abort does to the outcome. -/
theorem cycle_flushed {f : Option Slot} {s : State} (hrun : (cycle f s).status = .running) :
    (cycle f s).flushed = s.flushed ∨
    ∃ i, f = some (.ok i) ∧ (cycle f s).flushed = s.outcome.bind (Storage.thenExecute s.program s.pc i) := by
  obtain ⟨m, x, g, hmem, hex, hif, h⟩ := cycle_commits hrun
  rw [h]
  rcases ifStage_ok hif with ⟨n, hn, rfl⟩ | ⟨hredirect, hstall, rfl⟩ | ⟨hredirect, hstall, i, rfl, rfl⟩ |
    ⟨hredirect, hstall, -, rfl⟩
  · exact .inl (flushed_committed_redirect hmem hex hn)
  · exact .inl (flushed_committed_stall hmem hex hredirect hstall)
  · exact .inr ⟨i, rfl, flushed_committed_fetch hmem hex hredirect hstall i⟩
  · exact .inl (flushed_committed_nothing hmem hex hredirect hstall)

/-! ### The drain reaches the outcome -/

theorem cycle_none_flushed {s : State} (hrun : (cycle none s).status = .running) :
    (cycle none s).flushed = s.flushed := by
  rcases cycle_flushed hrun with h | ⟨i, hi, -⟩
  · exact h
  · cases hi

/-- A running state whose outcome is no error can take a cycle with nothing fetched. -/
theorem cycle_none_running {s : State} {a : Arch} (hrun : s.status = .running) (ha : s.flushed = .ok a) :
    (cycle none s).status = .running := by
  by_contra hstop
  have hnoError : ∀ e, s.outcome ≠ .error e := by
    intro e he
    rw [State.flushed, he] at ha
    cases ha
  rcases cycle_cases none s with ⟨e, hmem, -⟩ | ⟨m, e, hmem, hex, -⟩ | ⟨m, x, e, -, -, hif, -⟩ | ⟨m, x, g, -, -, -, h⟩
  · have hdmem : memStage s.exmem (s.storage.wb s.memwb).dmem = .error e := hmem
    refine hnoError e ?_
    rw [State.outcome, State.older, Storage.mem, hdmem]
    rfl
  · have hdmem : memStage s.exmem (s.storage.wb s.memwb).dmem = .ok m := hmem
    refine hnoError e ?_
    rw [State.outcome, State.older, Storage.mem, hdmem]
    simp only [Except.bind, Storage.ex, hex]
  · obtain ⟨-, -, k, hk, -⟩ := ifStage_error hif
    cases hk
  · rw [h, State.committed_status] at hstop
    exact hstop hrun

theorem drainFor_flushed {n : Nat} {s : State} (hrun : (drainFor n s).status = .running) :
    (drainFor n s).flushed = s.flushed := by
  induction n generalizing s with
  | zero => rfl
  | succ n ih =>
    by_cases hbusy : s.status = .running ∧ ¬ s.latchesEmpty
    · rw [drainFor_cycle hbusy] at hrun ⊢
      rw [ih hrun]
      by_cases hgoes : (cycle none s).status = .running
      · exact cycle_none_flushed hgoes
      · rw [drainFor_done fun h => hgoes h.1] at hrun
        exact absurd hrun hgoes
    · rw [drainFor_done hbusy]

theorem drainFor_running {n : Nat} {s : State} {a : Arch} (hrun : s.status = .running) (ha : s.flushed = .ok a) :
    (drainFor n s).status = .running := by
  induction n generalizing s with
  | zero => exact hrun
  | succ n ih =>
    by_cases hbusy : s.status = .running ∧ ¬ s.latchesEmpty
    · have hgoes := cycle_none_running hrun ha
      rw [drainFor_cycle hbusy]
      exact ih hgoes ((cycle_none_flushed hgoes).trans ha)
    · rwa [drainFor_done hbusy]

/-- A drain that runs to its end stands at the outcome. -/
theorem flushed_eq_of_drain {s : State} (hrun : (drain s).status = .running) :
    (drain s).quiet ∧ s.flushed = .ok (drain s).arch := by
  have hempty : (drain s).latchesEmpty := (drain_settles s).resolve_right (not_not_intro hrun)
  exact ⟨⟨hrun, hempty⟩, (drainFor_flushed hrun).symm.trans (State.flushed_of_empty hempty)⟩

/-- A running state whose outcome is no error drains to it. -/
theorem drain_of_flushed {s : State} {a : Arch} (hrun : s.status = .running) (ha : s.flushed = .ok a) :
    (drain s).quiet ∧ (drain s).arch = a := by
  obtain ⟨hquiet, h⟩ := flushed_eq_of_drain (drainFor_running (n := 5) hrun ha)
  exact ⟨hquiet, Except.ok.inj (h.symm.trans ha)⟩

/-- Settles O41: the drain reaches the outcome of the instructions in EX, MEM and WB, and there the register
holds what the multiplexer delivers. -/
theorem forwardedValueIsSequential : Obligations.ForwardedValueIsSequential := by
  unfold Obligations.ForwardedValueIsSequential
  intro s r m x hrun hmem hex hno hdrain
  obtain ⟨-, hflushed⟩ := flushed_eq_of_drain hdrain
  rw [State.flushed, outcome_eq (s := { s with ifid := .bubble }) hmem hex ⟨.bubble, s.pc⟩] at hflushed
  cases hd : (State.committed { s with ifid := .bubble } m x ⟨.bubble, s.pc⟩).older with
  | error e =>
    rw [hd] at hflushed
    cases hflushed
  | ok d =>
    rw [hd, Except.bind, Storage.follow_bubble] at hflushed
    have hregs : d.regs = (drain { s with ifid := .bubble }).regs := congrArg Arch.regs (Except.ok.inj hflushed)
    rw [← hregs]
    refine fwd_eq_readReg (fun G hG hlw => ?_) hd
    exact hno G (idex_of_exStage_lw hex hG hlw) hlw

/-! ### An instruction fetched behind others -/

theorem exStage_noTransfer {l : Latch} {P : Program} {x : ExOut} (hno : l.noTransfer = true)
    (hex : exStage l P = .ok x) : x.redirect = none := by
  cases hn : x.redirect with
  | none => rfl
  | some n =>
    obtain ⟨F, t, rfl, ht, -, -⟩ := exStage_redirect hex hn
    simp [Latch.noTransfer, ht] at hno

/-- An instruction that is no transfer puts out no redirect when it completes. -/
theorem Storage.id_noTransfer {d : Storage} {P : Program} {l : Latch} {o : Storage × Option Nat}
    (hno : l.noTransfer = true) (h : d.id P l = .ok o) : o.2 = none := by
  cases l with
  | bubble => rw [← Except.ok.inj h]
  | full F =>
    have hno' : (Latch.full (d.decoded F.idx F.ins)).noTransfer = true := by
      rwa [Latch.noTransfer, Storage.decoded, (loadOperands_keeps _ _).2.1]
    rw [Storage.id, Storage.ex] at h
    cases hex : exStage (.full (d.decoded F.idx F.ins)) P with
    | error e =>
      rw [hex] at h
      cases h
    | ok x =>
      cases hmem : d.mem x.latch with
      | error e =>
        simp only [hex, hmem, Except.bind] at h
        cases h
      | ok d' =>
        simp only [hex, hmem, Except.bind] at h
        rw [← Except.ok.inj h]
        exact exStage_noTransfer hno' hex

/-- Where EX does not redirect and IF/ID holds no transfer, nothing in flight redirects. -/
theorem outcome_noTransfer {s : State} {m : MemOut} {x : ExOut} {o : Storage × Option Nat}
    (hmem : memStage s.exmem s.dmem = .ok m) (hex : exStage s.idex s.program = .ok x) (hredirect : x.redirect = none)
    (hifid : s.ifid.noTransfer = true) (h : s.outcome = .ok o) : o.2 = none := by
  rw [outcome_eq hmem hex ⟨s.ifid, s.pc⟩, hredirect] at h
  cases holder : (s.committed m x ⟨s.ifid, s.pc⟩).older with
  | error e =>
    rw [holder] at h
    cases h
  | ok d =>
    rw [holder] at h
    exact Storage.id_noTransfer hifid h

/-- Settles O57: the fetch adds the effect of `i` to the outcome of what is in flight, and the drain brings the core to
that outcome. -/
theorem passageAgreesWithOneAtATime : Obligations.PassageAgreesWithOneAtATime := by
  unfold Obligations.PassageAgreesWithOneAtATime
  intro s t i hrun hifid hidex hstall hexec hgoes
  rw [exec_eq, passage_running hrun] at hexec
  obtain rfl := Host.Outcome.next.inj hexec
  obtain ⟨-, hflushed⟩ := flushed_eq_of_drain hgoes
  have hcycle : (cycle (some (.ok i)) s).status = .running := by
    by_contra hstop
    rw [drain, drainFor_done fun h => hstop h.1] at hgoes
    exact hstop hgoes
  obtain ⟨m, x, g, hmem, hex, hif, h⟩ := cycle_commits hcycle
  have hredirect := exStage_noTransfer hidex hex
  rw [stallNow_eq (exNow_eq_some.mpr ⟨m, hmem, hex⟩)] at hstall
  rw [hredirect, hstall, ifStage_fetch] at hif
  obtain rfl := Except.ok.inj hif
  rw [h, flushed_committed_fetch hmem hex hredirect hstall, ← h] at hflushed
  cases ho : s.outcome with
  | error e =>
    rw [ho] at hflushed
    cases hflushed
  | ok o =>
    have hnone := outcome_noTransfer hmem hex hredirect hifid ho
    rw [ho, Except.bind, Storage.thenExecute, hnone] at hflushed
    have hdrained : s.flushed = .ok (o.1.at s.pc) := by
      rw [State.flushed, ho, Except.map, hnone]
      rfl
    obtain ⟨hquiet, harch⟩ := drain_of_flushed hrun hdrained
    have hprogram : (drain s).program = s.program := drainFor_program 5 s
    rw [← harch, ← hprogram] at hflushed
    obtain ⟨u, hu, huquiet, huarch⟩ := (execHasTheArchitecturalEffect (drain s) i hquiet).1 _ hflushed
    exact ⟨u, hu, huquiet.1, congrArg Arch.regs huarch, congrArg Arch.dmem huarch, congrArg Arch.pc huarch,
      congrArg Arch.executed huarch⟩

/-! ### A successful run -/

/-- A cycle ends a run only with an error. -/
theorem cycle_status_ne_success {f : Option Slot} {s : State} (hrun : s.status = .running) :
    (cycle f s).status ≠ .success := by
  intro hsuccess
  rcases cycle_aborts (f := f) hrun (by rw [hsuccess]; decide) with ⟨e, -, h⟩ | ⟨m, e, -, -, h⟩
  · rw [h] at hsuccess
    exact e.kind.status_ne_success hsuccess
  · rw [h] at hsuccess
    exact e.kind.status_ne_success hsuccess

/-- Everything the first turn of a successful run from a running state can be: the end, with the core drained, or a
clock cycle that does not abort. -/
theorem turn_of_success {k : Nat} {s : State} (hrun : s.status = .running)
    (hfin : (turns (k + 1) s).status = .success) :
    (s.drained ∧ turn s = s.succeed ∧ turns (k + 1) s = s.succeed) ∨
    (s.clocked ∧ turn s = cycle s.slotAtPc s ∧ (cycle s.slotAtPc s).status = .running ∧
      turns (k + 1) s = turns k (cycle s.slotAtPc s)) := by
  rw [turns] at hfin ⊢
  rcases turn_cases s with ⟨hstop, -⟩ | ⟨-, -, h⟩ | ⟨-, -, hdrained, h⟩ | ⟨hclocked, h⟩
  · exact absurd hrun hstop
  · rw [h, turns_terminated (ErrKind.status_ne_running .memoryLimitExceeded)] at hfin
    exact absurd hfin (ErrKind.status_ne_success .memoryLimitExceeded)
  · exact .inl ⟨hdrained, h, by rw [h, turns_terminated (by rw [State.succeed_status]; decide)]⟩
  · refine .inr ⟨hclocked, h, ?_, by rw [h]⟩
    by_contra hstop
    rw [h, turns_terminated hstop] at hfin
    exact cycle_status_ne_success hrun hfin

theorem seqRun_ok {P : Program} {a b : Arch} {i : Instr}
    (hslot : (P.store[a.pc]?).map (Entry.slotAt a.pc) = some (.ok i))
    (heffect : archEffect P i a = .ok b) (m : Nat) : seqRun P (m + 1) a = seqRun P m b := by
  simp only [seqRun, hslot, heffect]

/-- A run that ends in Success has an outcome in every running state on its way, and one-at-a-time execution goes on
from there to the state at the end. -/
theorem seqRun_of_success (k : Nat) {s : State} (hrun : s.status = .running) (hinv : s.pipelineInv)
    (hfin : (turns k s).status = .success) :
    ∃ a m, s.flushed = .ok a ∧ seqRun s.program m a = .ok (turns k s).arch ∧ (turns k s).pc = s.program.len := by
  induction k generalizing s with
  | zero => cases hrun.symm.trans hfin
  | succ k ih =>
    rcases turn_of_success hrun hfin with ⟨⟨hend, hempty⟩, -, hlast⟩ | ⟨-, hturn, hgoes, hnext⟩
    · rw [hlast]
      exact ⟨s.arch, 0, State.flushed_of_empty hempty, rfl, Nat.le_antisymm hinv.pcInRange hend⟩
    · have hinv' : (cycle s.slotAtPc s).pipelineInv := by
        rw [← hturn]
        exact hinv.turn
      rw [hnext] at hfin ⊢
      obtain ⟨a, m, ha, hseq, hpc⟩ := ih hgoes hinv' hfin
      rw [cycle_program] at hseq hpc
      rcases cycle_flushed hgoes with hsame | ⟨i, hslot, hfetch⟩
      · exact ⟨a, m, hsame.symm.trans ha, hseq, hpc⟩
      · rw [hfetch] at ha
        cases ho : s.outcome with
        | error e =>
          rw [ho] at ha
          cases ha
        | ok o =>
          obtain ⟨d, r⟩ := o
          rw [ho] at ha
          have hflushed : s.flushed = .ok (d.at (r.getD s.pc)) := by rw [State.flushed, ho]; rfl
          cases r with
          | some n =>
            obtain rfl := Except.ok.inj ha
            exact ⟨_, m, hflushed, hseq, hpc⟩
          | none => exact ⟨_, m + 1, hflushed, (seqRun_ok (a := d.at s.pc) hslot ha m).trans hseq, hpc⟩

/-- Settles O59: at the launch nothing is in flight, so the outcome is where one-at-a-time execution starts. -/
theorem sequentialEquivalence : Obligations.SequentialEquivalence := by
  unfold Obligations.SequentialEquivalence
  intro P k hfin
  obtain ⟨a, m, ha, hseq, hpc⟩ := seqRun_of_success k (State.launch_status P) (State.launch_pipelineInv P) hfin
  have hstart : (State.launch P).flushed = .ok Arch.start := State.flushed_of_empty ⟨rfl, rfl, rfl, rfl⟩
  obtain rfl := Except.ok.inj (hstart.symm.trans ha)
  exact ⟨m, (turns k (State.launch P)).arch, hseq, hpc, rfl, rfl, rfl⟩

end Sys2Proof.Machine
end

section
/-! PROOFS. The cycle count of a successful run (spec/70_reset_and_hazards.md R259). A cycle fetches an instruction,
stalls, redirects, or fetches nothing. What has been fetched has retired, is in flight, or was squashed by a redirect;
and how often nothing has been fetched can be read off the latches. So each cycle balances an account of these. -/

namespace Sys2Proof.Machine

/-! ### Retirements -/

/-- The sum of a table's entries after a write of `v`: the old entry makes way for `v`. -/
theorem sum_cellSet {m : Counts} (hm : m.Pairwise (fun x y => x.1 < y.1)) (a : Nat) {v : Nat} (hv : v ≠ 0) :
    ((cellSet 0 m a v).map Prod.snd).sum + cellGet 0 m a = (m.map Prod.snd).sum + v := by
  induction m with
  | nil => simp [cellSet, cellGet, hv]
  | cons c t ih =>
    obtain ⟨b, u⟩ := c
    obtain ⟨hb, ht⟩ := List.pairwise_cons.mp hm
    by_cases hlt : a < b
    · have hget : cellGet 0 ((b, u) :: t) a = 0 := by
        refine cellGet_of_not_listed fun c hc => ?_
        rcases List.mem_cons.mp hc with rfl | hc
        · exact hlt.ne'
        · exact (hlt.trans (hb c hc)).ne'
      rw [hget]
      simp [cellSet, hlt, hv]
      omega
    · by_cases heq : a = b
      · simp [cellSet, cellGet, heq, hv]
        omega
      · have := ih ht
        simp [cellSet, cellGet, hlt, heq]
        omega

theorem Counts.total_bump {c : Counts} (hc : Counts.wf c) (k : Nat) :
    Counts.total (Counts.bump c k) = Counts.total c + 1 := by
  have h := sum_cellSet hc.1 k (v := Counts.at c k + 1) (Nat.succ_ne_zero _)
  simp only [Counts.total, Counts.bump, Counts.at] at h ⊢
  omega

/-! ### Instructions in flight -/

/-- 1 for an instruction, 0 for a bubble. -/
def Latch.count : Latch → Nat
  | .bubble => 0
  | .full _ => 1

@[simp] theorem Latch.count_bubble : Latch.count .bubble = 0 := rfl
@[simp] theorem Latch.count_full (F : InFlight) : Latch.count (.full F) = 1 := rfl

/-- How many instructions are in flight (10 R39). -/
def State.inFlight (s : State) : Nat := s.ifid.count + s.idex.count + s.exmem.count + s.memwb.count

theorem Latch.count_eq_of_bubble_iff {l l' : Latch} (h : l = .bubble ↔ l' = .bubble) : l.count = l'.count := by
  cases l with
  | bubble => rw [h.mp rfl]
  | full F =>
    cases l' with
    | bubble => cases h.mpr rfl
    | full G => rfl

theorem State.total_afterWb {s : State} (hwf : Counts.wf s.retired) :
    Counts.total s.afterWb.retired = Counts.total s.retired + s.memwb.count := by
  cases hl : s.memwb with
  | bubble => rw [(State.afterWb_bubble hl).2]; rfl
  | full F => rw [(State.afterWb_full hl).2, Counts.total_bump hwf]; rfl

/-! ### How often nothing has been fetched -/

/-- The bubbles in front of the youngest instruction in flight. -/
def leadingBubbles (ifid idex exmem memwb : Latch) : Nat :=
  match ifid, idex, exmem, memwb with
  | .full _, _, _, _ => 0
  | .bubble, .full _, _, _ => 1
  | .bubble, .bubble, .full _, _ => 2
  | .bubble, .bubble, .bubble, .full _ => 3
  | .bubble, .bubble, .bubble, .bubble => 4

/-- Past the end of the program, the cycles since the last fetch that counts: a redirect to len counts as two. -/
def State.lead (s : State) : Nat :=
  if s.pc < s.program.len then 0 else leadingBubbles s.ifid s.idex s.exmem s.memwb

/-- Inside the program, IF has always fetched behind the instruction in ID/EX (40 R114). -/
def State.fed (s : State) : Prop := ∀ F, s.idex = .full F → s.pc < s.program.len → s.ifid ≠ .bubble

theorem leadingBubbles_full (F : InFlight) (a b c : Latch) : leadingBubbles (.full F) a b c = 0 := rfl

/-- A cycle that fetches nothing adds a bubble, until the pipeline is empty. -/
theorem leadingBubbles_shift {ifid idex exmem memwb idex' exmem' memwb' : Latch}
    (hbusy : ¬ (ifid = .bubble ∧ idex = .bubble ∧ exmem = .bubble ∧ memwb = .bubble))
    (hidex : idex' = .bubble ↔ ifid = .bubble) (hexmem : exmem' = .bubble ↔ idex = .bubble)
    (hmemwb : memwb' = .bubble ↔ exmem = .bubble) :
    leadingBubbles .bubble idex' exmem' memwb' = leadingBubbles ifid idex exmem memwb + 1 := by
  cases ifid with
  | full F =>
    cases idex' with
    | bubble => cases hidex.mp rfl
    | full _ => rfl
  | bubble =>
    rw [hidex.mpr rfl]
    cases idex with
    | full F =>
      cases exmem' with
      | bubble => cases hexmem.mp rfl
      | full _ => rfl
    | bubble =>
      rw [hexmem.mpr rfl]
      cases exmem with
      | full F =>
        cases memwb' with
        | bubble => cases hmemwb.mp rfl
        | full _ => rfl
      | bubble =>
        rw [hmemwb.mpr rfl]
        cases memwb with
        | bubble => exact absurd ⟨rfl, rfl, rfl, rfl⟩ hbusy
        | full _ => rfl

theorem idStage_decode_bubble_iff {l x m : Latch} {R : Regs} : idStage none false l x m R = .bubble ↔ l = .bubble := by
  cases l <;> simp [idDecode]

/-- The instructions behind the one in ID/EX, and the fetches that found nothing to put there, are one together. -/
theorem State.fed.ifid_lead {s : State} (hfed : s.fed) {F : InFlight} (hF : s.idex = .full F) :
    s.ifid.count + s.lead = 1 := by
  by_cases hpc : s.pc < s.program.len
  · have hifid := hfed F hF hpc
    rw [State.lead, if_pos hpc]
    cases hl : s.ifid with
    | bubble => exact absurd hl hifid
    | full G => rfl
  · rw [State.lead, if_neg hpc, hF]
    cases s.ifid <;> rfl

theorem cycle_fed {s : State} (hrun : (cycle s.slotAtPc s).status = .running) : (cycle s.slotAtPc s).fed := by
  obtain ⟨m, x, g, hmem, hex, hif, h⟩ := cycle_commits hrun
  rw [h]
  intro F hF hpc
  obtain ⟨hredirect, hstall, G, -, -⟩ := idStage_full hF
  rw [State.committed_ifid]
  rw [State.committed_pc, State.committed_program] at hpc
  rcases ifStage_ok hif with ⟨n, hn, -⟩ | ⟨-, hstall', -⟩ | ⟨-, -, i, -, rfl⟩ | ⟨-, -, hslot, rfl⟩
  · cases hredirect.symm.trans hn
  · cases hstall.symm.trans hstall'
  · nofun
  · exact absurd hpc (Nat.not_lt.mpr ((slotAtPc_eq_none s).mp hslot))

/-! ### The account of a cycle -/

/-- The account of a committing cycle, the stages from EX on taken out: they hand on what they hold. -/
theorem account_of_front {s : State} {m : MemOut} {x : ExOut} {g : IfOut} {stalls redirects : Nat}
    (hwf : Counts.wf s.retired) (hmem : memStage s.exmem s.dmem = .ok m) (hex : exStage s.idex s.program = .ok x)
    (hfront : g.ifid.count + (s.committed m x g).idex.count + (s.committed m x g).lead + stalls + redirects =
      s.ifid.count + s.lead + 1) :
    Counts.total (s.committed m x g).retired + (s.committed m x g).inFlight + (s.committed m x g).lead + stalls +
        redirects =
      Counts.total s.retired + s.inFlight + s.lead + 1 := by
  have hx := Latch.count_eq_of_bubble_iff (exStage_bubble_iff hex)
  have hm := Latch.count_eq_of_bubble_iff (memStage_bubble_iff hmem)
  simp only [State.inFlight, State.committed_retired, State.committed_ifid, State.committed_exmem,
    State.committed_memwb, State.total_afterWb hwf, hx, hm]
  omega

/-- A redirect squashes what is in IF/ID, or finds that nothing has been fetched there. -/
theorem front_redirect {s : State} {x : ExOut} {n : Nat} (hfed : s.fed) (hex : exStage s.idex s.program = .ok x)
    (hn : x.redirect = some n) (m : MemOut) :
    Latch.count .bubble + (s.committed m x ⟨.bubble, n⟩).idex.count + (s.committed m x ⟨.bubble, n⟩).lead + 0 +
        2 * (if n ≠ s.program.len then 1 else 0) =
      s.ifid.count + s.lead + 1 := by
  obtain ⟨F, t, hF, -, -, hlatch⟩ := exStage_redirect hex hn
  have hle := exStage_redirect_le hex hn
  have hlead : (s.committed m x ⟨.bubble, n⟩).lead = if n < s.program.len then 0 else 2 := by
    rw [State.lead, State.committed_exmem, State.committed_idex, hn, hlatch]
    rfl
  rw [hfed.ifid_lead hF, hlead, State.committed_idex, hn, idStage_redirect]
  by_cases hend : n = s.program.len
  · simp [hend]
  · have hinside : n < s.program.len := Nat.lt_of_le_of_ne hle hend
    simp [hend, hinside]

/-- A stall holds IF/ID. -/
theorem front_stall {s : State} {x : ExOut} (hredirect : x.redirect = none) (hstall : s.stallWith x = true)
    (m : MemOut) :
    s.ifid.count + (s.committed m x ⟨s.ifid, s.pc⟩).idex.count + (s.committed m x ⟨s.ifid, s.pc⟩).lead + 1 + 0 =
      s.ifid.count + s.lead + 1 := by
  obtain ⟨F, G, r, hF, -⟩ := (loadUse_iff _ _).mp ((State.stallWith_iff s x).mp hstall).2
  have hlead : (s.committed m x ⟨s.ifid, s.pc⟩).lead = s.lead := by
    rw [State.lead, State.lead, State.committed_ifid, hF]
    rfl
  rw [hlead, State.committed_idex, hredirect, hstall, idStage_stall]
  rfl

/-- A fetch puts an instruction behind what IF/ID hands on. -/
theorem front_fetch {s : State} {x : ExOut} (hredirect : x.redirect = none) (hstall : s.stallWith x = false)
    (hpc : s.pc < s.program.len) (m : MemOut) (i : Instr) :
    1 + (s.committed m x ⟨.full { idx := s.pc, ins := i }, s.pc + 1⟩).idex.count +
        (s.committed m x ⟨.full { idx := s.pc, ins := i }, s.pc + 1⟩).lead + 0 + 0 =
      s.ifid.count + s.lead + 1 := by
  have hlead : (s.committed m x ⟨.full { idx := s.pc, ins := i }, s.pc + 1⟩).lead = 0 := by
    rw [State.lead, State.committed_ifid, leadingBubbles_full, ite_self]
  have hlead' : s.lead = 0 := if_pos hpc
  rw [hlead, hlead', State.committed_idex, hredirect, hstall,
    Latch.count_eq_of_bubble_iff idStage_decode_bubble_iff]
  omega

/-- Past the end a cycle adds a bubble in front of what is in flight. -/
theorem front_nothing {s : State} {m : MemOut} {x : ExOut} (hclocked : s.clocked)
    (hmem : memStage s.exmem s.dmem = .ok m) (hex : exStage s.idex s.program = .ok x) (hredirect : x.redirect = none)
    (hstall : s.stallWith x = false) (hpc : s.program.len ≤ s.pc) :
    Latch.count .bubble + (s.committed m x ⟨.bubble, s.pc⟩).idex.count + (s.committed m x ⟨.bubble, s.pc⟩).lead + 0 +
        0 =
      s.ifid.count + s.lead + 1 := by
  have hpast : ¬ s.pc < s.program.len := Nat.not_lt.mpr hpc
  have hbusy : ¬ s.latchesEmpty := fun hempty => hclocked.2.2 ⟨hpc, hempty⟩
  have hidex : (s.committed m x ⟨.bubble, s.pc⟩).idex = .bubble ↔ s.ifid = .bubble := by
    rw [State.committed_idex, hredirect, hstall]
    exact idStage_decode_bubble_iff
  have hlead : (s.committed m x ⟨.bubble, s.pc⟩).lead = s.lead + 1 := by
    rw [State.lead, State.lead, State.committed_pc, State.committed_program, if_neg hpast, if_neg hpast]
    exact leadingBubbles_shift hbusy hidex (exStage_bubble_iff hex) (memStage_bubble_iff hmem)
  rw [hlead, Latch.count_eq_of_bubble_iff hidex, Latch.count_bubble]
  omega

/-- With nothing in flight neither signal is asserted. -/
theorem signals_of_empty {s : State} (hempty : s.latchesEmpty) : s.stallNow = false ∧ s.redirectsInside = false := by
  obtain ⟨hifid, hidex, hexmem, -⟩ := hempty
  have hx : s.exNow = some ⟨.bubble, none⟩ := by
    simp [State.exNow, hidex, hexmem]
  rw [stallNow_eq hx, State.redirectsInside, redirectNow_eq hx, State.stallWith, hifid]
  exact ⟨rfl, rfl⟩

/-- A state that no turn changes counts for nothing. -/
theorem countTurns_of_fixed {p : State → Bool} {s : State} (hp : p s = false) (hs : turn s = s) (k : Nat) :
    countTurns p k s = 0 := by
  induction k with
  | zero => rfl
  | succ k ih => rw [countTurns, hp, hs, ih]; rfl

/-- Nor does the end in Success, before it or behind it. -/
theorem countTurns_of_drained {p : State → Bool} {s : State} (hturn : turn s = s.succeed) (hp : p s = false)
    (hp' : p s.succeed = false) (k : Nat) : countTurns p (k + 1) s = 0 := by
  have hstop : turn s.succeed = s.succeed := turn_terminated (by rw [State.succeed_status]; decide)
  rw [countTurns, hturn, hp, countTurns_of_fixed hp' hstop]
  rfl

/-- Each cycle that commits adds 1 to: retirements, instructions in flight and the lead, a stall counted once and a
redirect inside the program twice. -/
theorem cycle_account {s : State} (hclocked : s.clocked) (hfed : s.fed) (hwf : Counts.wf s.retired)
    (hrun : (cycle s.slotAtPc s).status = .running) :
    Counts.total (cycle s.slotAtPc s).retired + (cycle s.slotAtPc s).inFlight + (cycle s.slotAtPc s).lead +
        (if s.stallNow then 1 else 0) + 2 * (if s.redirectsInside then 1 else 0) =
      Counts.total s.retired + s.inFlight + s.lead + 1 := by
  obtain ⟨m, x, g, hmem, hex, hif, h⟩ := cycle_commits hrun
  have hx := exNow_eq_some.mpr ⟨m, hmem, hex⟩
  rw [h, stallNow_eq hx, State.redirectsInside, redirectNow_eq hx]
  refine account_of_front hwf hmem hex ?_
  rcases ifStage_ok hif with ⟨n, hn, rfl⟩ | ⟨hredirect, hstall, rfl⟩ | ⟨hredirect, hstall, i, hslot, rfl⟩ |
    ⟨hredirect, hstall, hslot, rfl⟩
  · have hnostall : s.stallWith x = false := by rw [State.stallWith, hn]; rfl
    have hfront := front_redirect hfed hex hn m
    simpa [hn, hnostall] using hfront
  · have hfront := front_stall hredirect hstall m
    simpa [hredirect, hstall] using hfront
  · have hfront := front_fetch hredirect hstall (slotAtPc_some_lt hslot) m i
    simpa [hredirect, hstall] using hfront
  · have hfront := front_nothing hclocked hmem hex hredirect hstall ((slotAtPc_eq_none s).mp hslot)
    simpa [hredirect, hstall] using hfront

/-! ### The account of a run -/

/-- The account of a successful run from a running state on its way: what the state holds, and what the run adds. -/
theorem cycles_of_success (k : Nat) {s : State} (hrun : s.status = .running) (hfed : s.fed) (hwf : Counts.wf s.retired)
    (hfin : (turns k s).status = .success) :
    (turns k s).cycles + Counts.total s.retired + s.inFlight + s.lead =
      s.cycles + Counts.total (turns k s).retired + 4 + countTurns State.stallNow k s +
        2 * countTurns State.redirectsInside k s := by
  induction k generalizing s with
  | zero => cases hrun.symm.trans hfin
  | succ k ih =>
    rcases turn_of_success hrun hfin with ⟨⟨hend, hempty⟩, hturn, hlast⟩ | ⟨hclocked, hturn, hgoes, hnext⟩
    · have hstalls : countTurns State.stallNow (k + 1) s = 0 :=
        countTurns_of_drained hturn (signals_of_empty hempty).1 (signals_of_empty (s := s.succeed) hempty).1 k
      have hredirects : countTurns State.redirectsInside (k + 1) s = 0 :=
        countTurns_of_drained hturn (signals_of_empty hempty).2 (signals_of_empty (s := s.succeed) hempty).2 k
      obtain ⟨hifid, hidex, hexmem, hmemwb⟩ := hempty
      have hlead : s.lead = 4 := by
        rw [State.lead, if_neg (Nat.not_lt.mpr hend), hifid, hidex, hexmem, hmemwb]
        rfl
      have hinFlight : s.inFlight = 0 := by
        rw [State.inFlight, hifid, hidex, hexmem, hmemwb]
        rfl
      rw [hlast, hstalls, hredirects, hlead, hinFlight, State.succeed_cycles, State.succeed_retired]
    · have haccount := cycle_account hclocked hfed hwf hgoes
      have hwf' : Counts.wf (cycle s.slotAtPc s).retired := by
        rw [cycle_retired]
        exact State.afterWb_countsWf hwf
      rw [hnext] at hfin
      have hrest := ih hgoes (cycle_fed hgoes) hwf' hfin
      rw [cycle_cycles] at hrest
      rw [hnext, countTurns, countTurns, hturn]
      omega

/-- Settles O60: at the launch nothing has been fetched; the empty program is drained at once. -/
theorem cycleCountOfASuccessfulRun : Obligations.CycleCountOfASuccessfulRun := by
  unfold Obligations.CycleCountOfASuccessfulRun
  intro P k hfin
  refine ⟨fun hlen => ?_, fun hempty => ?_⟩
  · have hlead : (State.launch P).lead = 0 := if_pos hlen
    have hfed : (State.launch P).fed := by
      intro F hF
      cases hF
    have haccount := cycles_of_success k (State.launch_status P) hfed Counts.wf_nil hfin
    have htotal : Counts.total (State.launch P).retired = 0 := rfl
    have hinFlight : (State.launch P).inFlight = 0 := rfl
    rw [hlead, htotal, hinFlight, State.launch_cycles] at haccount
    omega
  · cases k with
    | zero => cases hfin
    | succ k =>
      rcases turn_of_success (State.launch_status P) hfin with ⟨-, -, hlast⟩ | ⟨⟨-, -, hbusy⟩, -⟩
      · rw [hlast]
        rfl
      · exact absurd ⟨hempty.le, rfl, rfl, rfl, rfl⟩ hbusy

end Sys2Proof.Machine
end
